-- ==== Sys2Proof/Word.lean ====
section
/-! DEFINITION. The text of a memory cell. The core has no binary words: a cell holds text (00_scope.md R8, 20_memory.md R40). -/

namespace Sys2Proof

/-- A finite text of Unicode scalar values with no length bound: the content of one cell, and a token of it
(00_scope.md R6 `Char`, R8 `Cell`; D6). Lean's `Char` is exactly a Unicode scalar value. -/
abbrev Text := List Char

/-- One byte of an image file or of a table word. The core's memory has no bytes (20_memory.md R40). -/
abbrev Byte := BitVec 8

end Sys2Proof
end

