-- ==== Sys2Proof/Config.lean ====
section
/-! DEFINITION. The implementation parameters of 00_scope.md R6: the width, decided as 64, and `PARSE_TRIMS`, left open. -/

namespace Sys2Proof

/-- `W`, the width in bits of every integer: 64 for this hardware (00_scope.md R6, D1). -/
def Config.width : Nat := 64

/-- `INT_MIN = -2^63` (00_scope.md R6). -/
def Config.intMin : Int := -(2 ^ (Config.width - 1))

/-- `INT_MAX = 2^63 - 1` (00_scope.md R6). -/
def Config.intMax : Int := 2 ^ (Config.width - 1) - 1

/-- `PARSE_TRIMS`: whether the strict and lenient integer reads trim the cell text first. The spec leaves it OPEN
(00_scope.md R6, D7), so it has no body and a proof holds for both settings. Log 2; safe. -/
opaque Config.parseTrims : Bool

/-- `v` is in `Int_W` (00_scope.md R7). -/
abbrev InIntW (v : Int) : Prop := Config.intMin ≤ v ∧ v ≤ Config.intMax

end Sys2Proof
end

