-- ==== Sys2Proof/Machine/Flags.lean ====
section
/-! DEFINITION. The core has no flags and no condition codes (10_state.md R21). Here are the conditions its instructions
test instead, on the counter value they have just read. -/

namespace Sys2Proof.Machine

/-- The counter is zero: exact integer equality (42_beqz_pred.md R81). -/
def counterIsZero (v : Int) : Bool := v == 0

/-- `v + 1` leaves `Int_W` (41_succ.md R75, R77). -/
def succOverflows (v : Int) : Bool := v == Config.intMax

/-- `v - 1` leaves `Int_W` (42_beqz_pred.md R78, R81). -/
def predOverflows (v : Int) : Bool := v == Config.intMin

end Sys2Proof.Machine
end

