-- ==== Sys2Proof/Machine/State.lean ====
section
/-! DEFINITION. The architectural state `(pc, MEM, FAULT)` (10_state.md), the fault records (60_exceptions.md R84, R85),
and the state after reset. -/

namespace Sys2Proof.Machine

/-- A fault with its info fields: the closed set of 60_exceptions.md R84, R85. It is what the latch `FAULT` holds, and
what `step` answers while the latch is set (R89). -/
inductive Fault
  /-- Code 1. Raised by BSA wherever it rejects an address: at fetch, for an indirect operand's literal, for a resolved
  address (20_memory.md R31, R32). The spec's own fault; safe. -/
  | outOfBounds (address : Int) (memorySize : Nat)
  /-- Code 2. Raised at fetch by a cell that is neither an instruction nor an integer; `rawText` is the cell as stored
  (30_encoding.md R60, 40_dispatch.md R67). The spec's own fault; safe. -/
  | invalidInstruction (pcValue : Int) (rawText : Text)
  /-- Code 3. Raised at fetch by a cell that holds an integer; `rawText` is the cell as stored (30_encoding.md R60,
  40_dispatch.md R67). The spec's own fault; safe. -/
  | executingData (pcValue : Int) (rawText : Text)
  /-- Code 4. Raised by nobody: the decoder has parsed every operand's literal (20_memory.md R38, D8, C3). It keeps the
  taxonomy complete; safe. -/
  | malformedAddress (operandText : Text)
  /-- Code 5. Raised by ARM when an indirect operand's pointer cell holds no integer (20_memory.md R37). The spec's own
  fault; safe. -/
  | malformedIndirectTarget (address : Int) (cellText : Text)
  /-- Code 6. Raised by `succ` at `INT_MAX` and by a non-zero `beqz-pred` at `INT_MIN`; `value` is the counter before the
  step (41_succ.md R77, 42_beqz_pred.md R81, D4). The spec's own fault; safe: the model stops where a core that wraps
  would go on. -/
  | arithmeticOverflow (address value : Int)
deriving DecidableEq, Repr

/-- Why the model gives an instruction no meaning. -/
inductive Refusal
  /-- Raised by an arm of `exec` that has no meaning yet. No arm is left so; safe. -/
  | notModelled (mnemonic : String)
deriving DecidableEq, Repr

/-- `MEM`: the cells in index order; cell `i` is the `i`-th entry, counted from 0, and the length is `N` (10_state.md
R18). A dense list has one form only, so equal memories are equal data (log 6). -/
abbrev Memory := List Text

/-- The memory is no longer than `INT_MAX` cells (00_scope.md R6, D14). -/
abbrev Memory.wf (m : Memory) : Prop := (m.length : Int) ≤ Config.intMax

/-- The architectural state (10_state.md R17, R18, R22). -/
structure State where
  /-- The program counter, an `Int_W`; it may lie outside `[0, N)` between steps (10_state.md R17). -/
  pc : Int
  /-- The cell array; its length is `N` (10_state.md R18, R23). -/
  mem : Memory
  /-- The fault latch `FAULT`: `none` while `FAULT.valid` is false, else the latched record (10_state.md R22; log 5). -/
  fault : Option Fault
deriving DecidableEq, Repr

/-- `pc` is an `Int_W` and `N` is within its bound (10_state.md R17, 00_scope.md R6). -/
abbrev State.wf (s : State) : Prop := InIntW s.pc ∧ Memory.wf s.mem

/-- The machine after `CONSTRUCT(0, [])`. The spec's reset takes `pc0` and the image from the host
(70_reset_and_hazards.md R100, R101); `pc0 = 0` and the empty image are the model's (DESIGN CHOICE, log 3; unsafe). -/
def State.reset : State := { pc := 0, mem := [], fault := none }

end Sys2Proof.Machine
end

