-- ==== Sys2Proof/Machine/Ops.lean ====
section
/-! DEFINITION. The shared operations: the cell array, BSA, PCC and taking a fault (20_memory.md R30 to R33,
40_dispatch.md R65 to R70, 60_exceptions.md R84 to R88). -/

namespace Sys2Proof.Machine

/-- `N`, the memory length (10_state.md R23). -/
def State.memSize (s : State) : Nat := s.mem.length

/-- The address is valid: `0 <= a < N` (00_scope.md R7). -/
abbrev State.hasCell (s : State) (a : Int) : Prop := 0 ≤ a ∧ a < s.memSize

/-- The text of cell `a`, `none` where no such cell exists. -/
def State.cell (s : State) (a : Int) : Option Text :=
  if a < 0 then none else s.mem[a.toNat]?

/-- `MemRead(a, 1)` (00_scope.md R9, 20_memory.md R30). The step asks it only for an admitted address; elsewhere it gives
the empty text, which no step reads. -/
def State.memRead (s : State) (a : Int) : Text := (s.cell a).getD []

/-- `MemWrite(a, 1, s)` (00_scope.md R9, 20_memory.md R30). It leaves the memory alone where no cell `a` exists, which no
step asks. -/
def Memory.write (m : Memory) (a : Int) (t : Text) : Memory :=
  if a < 0 then m else m.set a.toNat t

/-- `Check(a)`: the bounds arbiter BSA (20_memory.md R31). -/
def check (s : State) (a : Int) : Except Fault Unit :=
  if a < 0 ∨ (s.memSize : Int) ≤ a then .error (.outOfBounds a s.memSize) else .ok ()

/-- The next-pc select the dispatcher gives to PCC (40_dispatch.md R69). -/
inductive PcSelect
  /-- `pc + 1`. -/
  | inc
  /-- An address BSA has admitted. -/
  | load (target : Int)
  /-- `pc` unchanged. -/
  | hold
deriving DecidableEq, Repr

/-- PCC: the `pc` a select gives (40_dispatch.md R69). -/
def nextPc (pc : Int) : PcSelect → Int
  | .inc => pc + 1
  | .load target => target
  | .hold => pc

/-- Commit: the step's memory write, if any, and its `pc` update together (40_dispatch.md R70). -/
def commit (s : State) (write : Option (Int × Text)) (sel : PcSelect) : State :=
  { s with
    mem := match write with
      | none => s.mem
      | some (a, t) => s.mem.write a t
    pc := nextPc s.pc sel }

/-- What a committed step reports, the Boolean of the source's `step()` (40_dispatch.md R65, R71). It is the answer of a
transaction and is not stored (10_state.md R21). -/
inductive Signal
  /-- `Continue`. -/
  | cont
  /-- `Halt`. -/
  | halt
deriving DecidableEq, Repr

/-- Fault entry (60_exceptions.md R88): `FAULT` latches the record; `pc` and `MEM` keep their values from before the
step. No other state is saved and control goes nowhere. There is no return beside it: nothing but CONSTRUCT clears the
latch (R89, R90). -/
def State.takeFault (s : State) (f : Fault) : State := { s with fault := some f }

/-- The end of an instruction begun in `s`: its committed state, or the entry of the fault it raised (40_dispatch.md R70,
60_exceptions.md R88; log 4). The signal is the transaction's (Machine/Transactions.lean). -/
def settle (s : State) : Except Fault (Signal × State) → Host.Outcome State Fault Refusal
  | .ok (_, s') => .next s'
  | .error f => .next (s.takeFault f)

/-- The six kinds of fault (60_exceptions.md R84). -/
inductive FaultKind
  | outOfBounds
  | invalidInstruction
  | executingData
  | malformedAddress
  | malformedIndirectTarget
  | arithmeticOverflow
deriving DecidableEq, Repr

/-- `FAULT.kind` of a latched record (10_state.md R22). -/
def Fault.kind : Fault → FaultKind
  | .outOfBounds _ _ => .outOfBounds
  | .invalidInstruction _ _ => .invalidInstruction
  | .executingData _ _ => .executingData
  | .malformedAddress _ => .malformedAddress
  | .malformedIndirectTarget _ _ => .malformedIndirectTarget
  | .arithmeticOverflow _ _ => .arithmeticOverflow

/-- The code of a kind (60_exceptions.md R84, D9). -/
def FaultKind.code : FaultKind → Nat
  | .outOfBounds => 1
  | .invalidInstruction => 2
  | .executingData => 3
  | .malformedAddress => 4
  | .malformedIndirectTarget => 5
  | .arithmeticOverflow => 6

/-- `FAULT.code`; 0 means no fault (60_exceptions.md R84). -/
def State.faultCode (s : State) : Nat :=
  match s.fault with
  | none => 0
  | some f => f.kind.code

end Sys2Proof.Machine
end

