-- ==== Sys2Proof/Syntax.lean ====
section
/-! DEFINITION. Instructions and operands (00_scope.md R10): one constructor for each row of spec/opcode_table.json. -/

namespace Sys2Proof

/-- The addressing mode an operand's sigil selects (00_scope.md R10, 30_encoding.md R55). -/
inductive Mode
  /-- Sigil `$`: the literal is the address (20_memory.md R35). -/
  | direct
  /-- Sigil `&`: the literal is the address of the cell that holds the address (20_memory.md R36). -/
  | indirect
deriving DecidableEq, Repr

/-- A decoded operand (00_scope.md R10): its mode, its literal already parsed into `Int_W`, and its token as written. -/
structure Operand where
  mode : Mode
  lit  : Int
  text : Text
deriving DecidableEq, Repr

/-- A decoded instruction (00_scope.md R10, 30_encoding.md R52). -/
inductive Instr
  /-- `exit`, format F0: halt (43_exit.md R82). -/
  | exit
  /-- `succ <target>`, format F1: increment (41_succ.md R75). -/
  | succ (target : Operand)
  /-- `beqz-pred <test> <jump>`, format F2: branch if zero, else decrement (42_beqz_pred.md R78). -/
  | beqzPred (test jump : Operand)
deriving DecidableEq, Repr

end Sys2Proof
end

