-- ==== Sys2Proof/Machine/Text.lean ====
section
/-! DEFINITION. The text layer the decoder, the operand resolution and the counter reads share: whitespace, trimming,
tokens and the integer codec (30_encoding.md R46 to R51). -/

namespace Sys2Proof

/-- `IsWs(c)`: the whitespace of trimming and tokenising, exactly the characters listed in 30_encoding.md R47 (D5). -/
def isWs (c : Char) : Bool :=
  let n := c.toNat
  (0x9 ≤ n && n ≤ 0xD) || n == 0x20 || n == 0x85 || n == 0xA0 || n == 0x1680 || (0x2000 ≤ n && n ≤ 0x200A)
    || n == 0x2028 || n == 0x2029 || n == 0x202F || n == 0x205F || n == 0x3000

/-- The text without its longest whitespace prefix. -/
def trimStart (t : Text) : Text := t.dropWhile isWs

/-- The text without its longest whitespace suffix. -/
def trimEnd (t : Text) : Text := (trimStart t.reverse).reverse

/-- `Trim(s)` (30_encoding.md R50). -/
def trim (t : Text) : Text := trimEnd (trimStart t)

/-- `Tokens(s)`: the maximal runs of non-whitespace characters, left to right (30_encoding.md R51). -/
def tokens : Text → List Text
  | [] => []
  | c :: cs =>
    if isWs c then tokens cs
    else
      match cs.head?, tokens cs with
      | some d, t :: ts => if isWs d then [c] :: t :: ts else (c :: t) :: ts
      | _, ts => [c] :: ts

/-- The literal's digits: the text without one leading sign, `+` or `-` (30_encoding.md R46). -/
def unsignedPart : Text → Text
  | [] => []
  | c :: cs => if c = '+' ∨ c = '-' then cs else c :: cs

/-- The text has the form `sign? digit+`, a digit being one of the ten ASCII digits (30_encoding.md R46). -/
def isIntLiteral (t : Text) : Bool := !(unsignedPart t).isEmpty && (unsignedPart t).all Char.isDigit

/-- The integer a text of the form `sign? digit+` denotes, read in base 10, most significant digit first
(30_encoding.md R46). -/
def literalValue (t : Text) : Int :=
  let m : Int := Nat.ofDigitChars 10 (unsignedPart t) 0
  if t.head? = some '-' then -m else m

/-- `ParseInt(s)`: the strict integer parse, within `Int_W` (30_encoding.md R46, D2). -/
def parseInt (t : Text) : Option Int :=
  if isIntLiteral t ∧ InIntW (literalValue t) then some (literalValue t) else none

/-- `CellInt(t)`: the strict integer read of a cell's text (30_encoding.md R48, D7). The open `PARSE_TRIMS` is asked
only where its two settings differ, so that every other cell can be evaluated; `cellInt_eq` (Laws/Text.lean) says that
this is R48's `ParseInt(PARSE_TRIMS ? Trim(t) : t)`. -/
def cellInt (t : Text) : Option Int :=
  if parseInt (trim t) = parseInt t then parseInt t
  else if Config.parseTrims then parseInt (trim t) else parseInt t

/-- `Lenient(t)`: the integer read of a counter cell, 0 where the strict read fails (30_encoding.md R48,
00_scope.md R16). -/
def lenient (t : Text) : Int := (cellInt t).getD 0

/-- `Render(v)`: the canonical decimal text written back to a counter cell (30_encoding.md R49, D3). -/
def render (v : Int) : Text :=
  if v < 0 then '-' :: Nat.toDigits 10 v.natAbs else Nat.toDigits 10 v.natAbs

/-- The sigil that spells an addressing mode (30_encoding.md R55). -/
def sigilOf : Mode → Char
  | .direct => '$'
  | .indirect => '&'

/-- The addressing mode a sigil selects; no other character selects one (30_encoding.md R54, R55). -/
def modeOfSigil (c : Char) : Option Mode :=
  if c = '$' then some .direct else if c = '&' then some .indirect else none

end Sys2Proof
end

