-- ==== Sys2Proof/Machine/Operands.lean ====
section
/-! DEFINITION. The operand forms: ARM (20_memory.md R34 to R37) and the counter accesses (R39). -/

namespace Sys2Proof.Machine

/-- `Resolve(op)`: the cell address an operand names. It does not check the address it returns (20_memory.md R34). -/
def resolve (s : State) (op : Operand) : Except Fault Int :=
  match op.mode with
  | .direct => .ok op.lit
  | .indirect => do
    check s op.lit
    match cellInt (s.memRead op.lit) with
    | none => .error (.malformedIndirectTarget op.lit (s.memRead op.lit))
    | some a => .ok a

/-- `ReadCounter(a)`: lenient, never fails (20_memory.md R39). -/
def readCounter (s : State) (a : Int) : Int := lenient (s.memRead a)

/-- The write of `WriteCounter(a, v)`: cell `a` gets `Render(v)` (20_memory.md R39). -/
def counterWrite (a v : Int) : Int × Text := (a, render v)

end Sys2Proof.Machine
end

