-- ==== Sys2Proof/Machine/BeqzPred.lean ====
section
/-! DEFINITION. `beqz-pred` (42_beqz_pred.md). -/

namespace Sys2Proof.Machine

/-- `ExecBeqzPred(test, jump)` (42_beqz_pred.md R78). The jump operand is resolved on the zero path only (R79, C4). -/
def beqzPredBody (test jump : Operand) (s : State) : Except Fault (Signal × State) := do
  let ta ← resolve s test
  check s ta
  let v := readCounter s ta
  if counterIsZero v then do
    let ja ← resolve s jump
    check s ja
    .ok (.cont, commit s none (.load ja))
  else if predOverflows v then
    .error (.arithmeticOverflow ta v)
  else
    .ok (.cont, commit s (some (counterWrite ta (v - 1))) .inc)

/-- The meaning of `beqz-pred`. -/
def execBeqzPred (test jump : Operand) (s : State) : Host.Outcome State Fault Refusal :=
  settle s (beqzPredBody test jump s)

end Sys2Proof.Machine
end

