-- ==== Sys2Proof/Machine/Exit.lean ====
section
/-! DEFINITION. `exit` (43_exit.md). -/

namespace Sys2Proof.Machine

/-- `ExecExit()` (43_exit.md R82): no memory access, PCC holds, the step reports Halt. -/
def exitBody (s : State) : Except Fault (Signal × State) := .ok (.halt, commit s none .hold)

/-- The meaning of `exit`. -/
def execExit (s : State) : Host.Outcome State Fault Refusal := settle s (exitBody s)

end Sys2Proof.Machine
end

