-- ==== Sys2Proof/Machine/Succ.lean ====
section
/-! DEFINITION. `succ` (41_succ.md). -/

namespace Sys2Proof.Machine

/-- `ExecSucc(op)` (41_succ.md R75): the faults in check order, else the incremented counter and `pc + 1`. -/
def succBody (target : Operand) (s : State) : Except Fault (Signal × State) := do
  let a ← resolve s target
  check s a
  let v := readCounter s a
  if succOverflows v then
    .error (.arithmeticOverflow a v)
  else
    .ok (.cont, commit s (some (counterWrite a (v + 1))) .inc)

/-- The meaning of `succ`. -/
def execSucc (target : Operand) (s : State) : Host.Outcome State Fault Refusal :=
  settle s (succBody target s)

end Sys2Proof.Machine
end

