-- ==== Sys2Proof/Machine/Dispatch.lean ====
section
/-! DEFINITION. The opcode dispatcher ODSP: one arm per instruction, no default arm (40_dispatch.md R68). -/

namespace Sys2Proof.Machine

/-- One instruction executed in a state (40_dispatch.md R68). -/
def exec (i : Instr) (s : State) : Host.Outcome State Fault Refusal :=
  match i with
  | .exit => Sys2Proof.Machine.execExit s
  | .succ target => Sys2Proof.Machine.execSucc target s
  | .beqzPred test jump => Sys2Proof.Machine.execBeqzPred test jump s

end Sys2Proof.Machine
end

