-- ==== Sys2Proof/Machine/Utf8.lean ====
section
/-! DEFINITION. UTF-8: the bytes an image file is read as (70_reset_and_hazards.md R104, D20). No step of the core reads
bytes (20_memory.md R40). -/

namespace Sys2Proof

/-- The reader's state is the number of continuation bytes still wanted, the bits gathered so far, and the least code
point a sequence of this length may spell. Overlong forms, surrogates, code points above U+10FFFF and cut sequences are
refused (log 8). -/
def utf8From (wanted acc least : Nat) : List Byte → Option Text
  | [] => if wanted = 0 then some [] else none
  | b :: bs =>
    let n := b.toNat
    match wanted with
    | 0 =>
      if n < 0x80 then (utf8From 0 0 0 bs).map (Char.ofNat n :: ·)
      else if 0xC0 ≤ n ∧ n < 0xE0 then utf8From 1 (n - 0xC0) 0x80 bs
      else if 0xE0 ≤ n ∧ n < 0xF0 then utf8From 2 (n - 0xE0) 0x800 bs
      else if 0xF0 ≤ n ∧ n < 0xF8 then utf8From 3 (n - 0xF0) 0x10000 bs
      else none
    | k + 1 =>
      let v := acc * 64 + (n - 0x80)
      if n < 0x80 ∨ 0xC0 ≤ n then none
      else if k = 0 then
        if least ≤ v ∧ v.isValidChar then (utf8From 0 0 0 bs).map (Char.ofNat v :: ·) else none
      else utf8From k v least bs

/-- The text a byte sequence spells in UTF-8, `none` where it is not valid UTF-8. -/
def utf8Text (bytes : List Byte) : Option Text := utf8From 0 0 0 bytes

end Sys2Proof
end

