-- ==== Sys2Proof/WellFormed.lean ====
section
/-! DEFINITION. Which operands and instructions the encoding can spell (30_encoding.md R54, R56). Each check reads the
fields of the term alone; none runs the decoder. -/

namespace Sys2Proof

/-- The literal is in `Int_W` (30_encoding.md R54, D8). -/
def Operand.litInRange (o : Operand) : Bool := decide (InIntW o.lit)

/-- The token begins with the sigil of the operand's mode (30_encoding.md R54). -/
def Operand.textHasSigil (o : Operand) : Bool := o.text.head? == some (sigilOf o.mode)

/-- What follows the sigil has the form `sign? digit+` (30_encoding.md R46, R54). -/
def Operand.textIsLiteral (o : Operand) : Bool := isIntLiteral o.text.tail

/-- What follows the sigil denotes the operand's literal (30_encoding.md R54). -/
def Operand.textDenotesLit (o : Operand) : Bool := literalValue o.text.tail == o.lit

/-- An operand that some token spells, the token being its `text` (30_encoding.md R54). -/
def Operand.wf (o : Operand) : Bool :=
  o.litInRange && o.textHasSigil && o.textIsLiteral && o.textDenotesLit

/-- An instruction each of whose operands is well formed (30_encoding.md R52, R56). -/
def Instr.wf : Instr → Bool
  | .exit => true
  | .succ target => target.wf
  | .beqzPred test jump => test.wf && jump.wf

/-- The operand of a given mode and literal in its canonical spelling: the sigil and `Render` of the literal
(30_encoding.md R49, R63). -/
def Operand.canonical (mode : Mode) (lit : Int) : Operand :=
  { mode := mode, lit := lit, text := sigilOf mode :: render lit }

end Sys2Proof
end

