-- ==== Sys2Proof/Decode.lean ====
section
/-! DEFINITION. The instruction decoder IDEC (30_encoding.md R52 to R58), the encoder after it, and the table-word form
of a text. -/

namespace Sys2Proof

/-- What the decoder answers to a text that is no instruction. It is a value, not a fault; the engine turns it into one
(30_encoding.md R58, R60). -/
inductive DecodeError
  /-- Not one of the three token sequences, a wrong number of tokens, or a malformed operand (30_encoding.md R57). -/
  | notAnInstruction
deriving DecidableEq, Repr

/-- The keyword of format F0 (30_encoding.md R52, R53). -/
def exitKeyword : Text := ['e', 'x', 'i', 't']

/-- The keyword of format F1 (30_encoding.md R52, R53). -/
def succKeyword : Text := ['s', 'u', 'c', 'c']

/-- The keyword of format F2; its `-` is U+002D (30_encoding.md R52, R53). -/
def beqzPredKeyword : Text := ['b', 'e', 'q', 'z', '-', 'p', 'r', 'e', 'd']

/-- `Op(k)`: the operand one token spells (30_encoding.md R54). -/
def decodeOperand : Text → Option Operand
  | [] => none
  | k :: literal =>
    match modeOfSigil k, parseInt literal with
    | some m, some v => some { mode := m, lit := v, text := k :: literal }
    | _, _ => none

/-- `Decode(s)` (30_encoding.md R58): total, and a function of the one text alone (R59). -/
def decode (t : Text) : Except DecodeError Instr :=
  match tokens t with
  | [k] => if k = exitKeyword then .ok .exit else .error .notAnInstruction
  | [k, a] =>
    if k = succKeyword then
      match decodeOperand a with
      | some target => .ok (.succ target)
      | none => .error .notAnInstruction
    else .error .notAnInstruction
  | [k, a, b] =>
    if k = beqzPredKeyword then
      match decodeOperand a, decodeOperand b with
      | some test, some jump => .ok (.beqzPred test jump)
      | _, _ => .error .notAnInstruction
    else .error .notAnInstruction
  | _ => .error .notAnInstruction

/-- The text of an instruction in the canonical spacing of 30_encoding.md R63: the keyword, then each operand's token
after one space. -/
def encode : Instr → Text
  | .exit => exitKeyword
  | .succ target => succKeyword ++ ' ' :: target.text
  | .beqzPred test jump => beqzPredKeyword ++ ' ' :: test.text ++ ' ' :: jump.text

/-- The bytes of a table word: byte `k` is bits `8k+7..8k`, the first byte the least significant. The spec has no binary
form of an instruction; this layout of its text's UTF-8 bytes is the model's (DESIGN CHOICE, log 7). -/
def tableBytes (nbits w : Nat) : List Byte :=
  (List.range ((nbits + 7) / 8)).map fun k => BitVec.ofNat 8 (w >>> (8 * k))

/-- The cell text a table word spells (log 7). -/
def tableText (nbits w : Nat) : Option Text := utf8Text (tableBytes nbits w)

/-- The instruction the decoder reads from the text a table word spells, trimmed as at fetch (30_encoding.md R60;
log 7). -/
def decodeTableWord (nbits w : Nat) : Option Instr :=
  match tableText nbits w with
  | none => none
  | some t =>
    match decode (trim t) with
    | .ok i => some i
    | .error _ => none

end Sys2Proof
end

