-- ==== Sys2Proof/Machine/Fetch.lean ====
section
/-! DEFINITION. Fetch and decode: the stages of a step before the dispatch (40_dispatch.md R65 to R67, 30_encoding.md
R60), and the placing of an instruction where the next step fetches it. -/

namespace Sys2Proof.Machine

/-- The class of a fetched text (30_encoding.md R60). -/
inductive FetchClass
  /-- An instruction. -/
  | code (i : Instr)
  /-- An integer: the step raises ExecutingData. -/
  | data
  /-- Neither: the step raises InvalidInstruction. -/
  | invalid
deriving DecidableEq, Repr

/-- `Classify(c)` (30_encoding.md R60). -/
def classify (c : Text) : FetchClass :=
  match decode (trim c) with
  | .ok i => .code i
  | .error _ => if (cellInt c).isSome then .data else .invalid

/-- The fetch and decode stages: the fetch bounds check, the read of the cell at `pc`, and its class
(40_dispatch.md R65 to R67). The faults carry the untrimmed text (D10). -/
def fetchDecode (s : State) : Except Fault Instr := do
  check s s.pc
  let c := s.memRead s.pc
  match classify c with
  | .code i => .ok i
  | .data => .error (.executingData s.pc c)
  | .invalid => .error (.invalidInstruction s.pc c)

/-- The state with a text stored where the next step fetches and with no fault latched. Where `pc` addresses no cell,
the text becomes cell 0 and `pc` becomes 0: it stands for the host's CONSTRUCT of a program (log 3, log 7). -/
def State.placeAtFetch (s : State) (t : Text) : State :=
  if s.hasCell s.pc then { s with mem := s.mem.write s.pc t, fault := none }
  else { pc := 0, mem := t :: s.mem.tail, fault := none }

end Sys2Proof.Machine
end

