-- ==== Sys2Proof/Machine/Step.lean ====
section
/-! DEFINITION. One step of the core (40_dispatch.md R65). -/

namespace Sys2Proof.Machine

/-- One STEP, as the state it leaves (40_dispatch.md R65): a step that commits and a step that enters a fault both have a
next state (60_exceptions.md R88); while a fault is latched nothing is executed and the answer is that fault (R89).
Log 4. `stepTransaction` (Machine/Transactions.lean) gives the answer Continue, Halt or Fault beside the state. -/
def step (s : State) : Host.Outcome State Fault Refusal :=
  match s.fault with
  | some f => .fault f
  | none =>
    match fetchDecode s with
    | .error f => .next (s.takeFault f)
    | .ok i => exec i s

/-- The state with the text of a table word stored where the next step fetches (log 7). A word that is no valid UTF-8
becomes U+FFFD, which is no instruction. -/
def State.withFetchWord (s : State) (nbits w : Nat) : State :=
  s.placeAtFetch ((tableText nbits w).getD [Char.ofNat 0xFFFD])

end Sys2Proof.Machine
end

