-- ==== Sys2Proof/Machine/Image.lean ====
section
/-! DEFINITION. The program image format, which fixes the `image` argument of CONSTRUCT (70_reset_and_hazards.md R104). -/

namespace Sys2Proof.Machine

/-- The text split at each U+000A (70_reset_and_hazards.md R104, D20). -/
def splitLines : Text → List Text
  | [] => [[]]
  | c :: cs =>
    match splitLines cs with
    | [] => [[c]]
    | l :: ls => if c = '\n' then [] :: l :: ls else (c :: l) :: ls

/-- `LoadImage(text)`: the trimmed lines that are not blank (70_reset_and_hazards.md R104). -/
def loadImage (t : Text) : List Text := ((splitLines t).map trim).filter (· ≠ [])

/-- `LoadImage` of a file's bytes; `none` is the load failure of a file that is not valid UTF-8
(70_reset_and_hazards.md R104, R105). -/
def loadImageBytes (bytes : List Byte) : Option (List Text) := (utf8Text bytes).map loadImage

end Sys2Proof.Machine
end

