-- ==== Sys2Proof/Machine/Transactions.lean ====
section
/-! DEFINITION. The host's transactions CONSTRUCT, STEP, RUN and the queries (00_scope.md R11, 40_dispatch.md R65 and R72,
70_reset_and_hazards.md R100 and R111). Each is one atomic event (R110). -/

namespace Sys2Proof.Machine

/-- `StepResult` (00_scope.md R11). -/
inductive StepResult
  | cont
  | halt
  | fault (f : Fault)
deriving DecidableEq, Repr

/-- `RunResult` (00_scope.md R11). -/
inductive RunResult
  | exhausted
  | halted
  | faulted (f : Fault)
deriving DecidableEq, Repr

/-- `Dispatch(i)`: the arm of an instruction with the signal it reports (40_dispatch.md R68, R71). -/
def dispatch (i : Instr) (s : State) : Except Fault (Signal × State) :=
  match i with
  | .exit => exitBody s
  | .succ target => succBody target s
  | .beqzPred test jump => beqzPredBody test jump s

/-- `StepBody()` (40_dispatch.md R65). -/
def stepBody (s : State) : Except Fault (Signal × State) := do
  let i ← fetchDecode s
  dispatch i s

/-- `STEP()`: its answer and the state it leaves (40_dispatch.md R65). -/
def stepTransaction (s : State) : StepResult × State :=
  match s.fault with
  | some f => (.fault f, s)
  | none =>
    match stepBody s with
    | .ok (.cont, s') => (.cont, s')
    | .ok (.halt, s') => (.halt, s')
    | .error f => (.fault f, s.takeFault f)

/-- The loop of `RUN(n)` (40_dispatch.md R72). -/
def runLoop : Nat → State → RunResult × State
  | 0, s => (.exhausted, s)
  | n + 1, s =>
    match stepTransaction s with
    | (.cont, s') => runLoop n s'
    | (.halt, s') => (.halted, s')
    | (.fault f, s') => (.faulted f, s')

/-- `RUN(n)` (40_dispatch.md R72). -/
def runTransaction (n : Nat) (s : State) : RunResult × State :=
  match s.fault with
  | some f => (.faulted f, s)
  | none => runLoop n s

/-- `CONSTRUCT(pc0, image)`: the core's reset. Nothing of an earlier state survives (70_reset_and_hazards.md R100, R102).
The host gives a `pc0` in `Int_W` and at most `INT_MAX` cells (R105, D14). -/
def construct (pc0 : Int) (image : List Text) : State := { pc := pc0, mem := image, fault := none }

/-- A transaction of the host (00_scope.md R11). -/
inductive Transaction
  | construct (pc0 : Int) (image : List Text)
  | step
  | run (n : Nat)
  | queryPc
  | queryMem
  | queryFault
deriving DecidableEq, Repr

/-- What a transaction answers (00_scope.md R11). -/
inductive Answer
  | nothing
  | step (r : StepResult)
  | run (r : RunResult)
  | pc (v : Int)
  | mem (cells : List Text)
  | fault (f : Option Fault)
deriving DecidableEq, Repr

/-- A transaction on a constructed core: its answer and the state it leaves (00_scope.md R11). The queries read
(10_state.md R25); QUERY_FAULT answers `none` while no fault is latched (R22). Before the first CONSTRUCT there is no
state and no transaction (70_reset_and_hazards.md R103; log 9). -/
def transact (t : Transaction) (s : State) : Answer × State :=
  match t with
  | .construct pc0 image => (.nothing, construct pc0 image)
  | .step => (.step (stepTransaction s).1, (stepTransaction s).2)
  | .run n => (.run (runTransaction n s).1, (runTransaction n s).2)
  | .queryPc => (.pc s.pc, s)
  | .queryMem => (.mem s.mem, s)
  | .queryFault => (.fault s.fault, s)

end Sys2Proof.Machine
end

