-- ==== Sys2Proof/Safety.lean ====
section
/-! DEFINITION. The terms claims are stated in: the launch premise, the honesty of the fault latch, and safe runs. -/

namespace Sys2Proof.Machine

/-- The launch premise `AllCellsTrimmed` (70_reset_and_hazards.md R106). -/
abbrev State.allCellsTrimmed (s : State) : Prop := ∀ c ∈ s.mem, trim c = c

/-- The record's values are those the state shows: what 60_exceptions.md R85 says each kind records, the state being the
one the faulting step kept (R88). No state shows a MalformedAddress (20_memory.md R38). -/
def Fault.describes (f : Fault) (s : State) : Prop :=
  match f with
  | .outOfBounds address memorySize => memorySize = s.memSize ∧ ¬ s.hasCell address
  | .invalidInstruction pcValue rawText =>
    pcValue = s.pc ∧ s.cell pcValue = some rawText ∧ decode (trim rawText) = .error .notAnInstruction ∧
      cellInt rawText = none
  | .executingData pcValue rawText =>
    pcValue = s.pc ∧ s.cell pcValue = some rawText ∧ decode (trim rawText) = .error .notAnInstruction ∧
      (cellInt rawText).isSome = true
  | .malformedAddress _ => False
  | .malformedIndirectTarget address cellText => s.cell address = some cellText ∧ cellInt cellText = none
  | .arithmeticOverflow address value =>
    (∃ t, s.cell address = some t ∧ lenient t = value) ∧ (value = Config.intMax ∨ value = Config.intMin)

/-- A latched record describes the state it is latched in. -/
def State.faultHonest (s : State) : Prop := ∀ f, s.fault = some f → f.describes s

/-- What every state a constructed core reaches satisfies: `pc` in `Int_W`, `N` within its bound, an honest latch. -/
def State.sound (s : State) : Prop := s.wf ∧ s.faultHonest

/-- The core has not faulted (10_state.md R22). -/
abbrev State.live (s : State) : Prop := s.fault = none

/-- `RUN(n)` from `s` raises no fault. -/
def runsSafely (n : Nat) (s : State) : Prop := (runTransaction n s).2.live

end Sys2Proof.Machine
end

