-- ==== Sys2Proof/Certificates/Slice0/Obligations.lean ====
section
/-! DEFINITION. The statements for the provers. -/

open Sys2Proof Sys2Proof.Machine

/-! The text layer (30_encoding.md R46 to R51) -/

/-- 30_encoding.md R47: whitespace is exactly the listed code points. -/
def Obligations.WhitespaceIsTheListedSet : Prop :=
  ∀ c : Char, isWs c = true ↔
    c.toNat ∈ [0x9, 0xA, 0xB, 0xC, 0xD, 0x20, 0x85, 0xA0, 0x1680, 0x2000, 0x2001, 0x2002, 0x2003, 0x2004, 0x2005,
      0x2006, 0x2007, 0x2008, 0x2009, 0x200A, 0x2028, 0x2029, 0x202F, 0x205F, 0x3000]

/-- 30_encoding.md R50: the text is a whitespace prefix, its trimmed text and a whitespace suffix, and the trimmed text
neither begins nor ends with whitespace. -/
def Obligations.TrimRemovesLongestWhitespaceEnds : Prop :=
  ∀ t : Text,
    (∃ pre suf, t = pre ++ trim t ++ suf ∧ (∀ c ∈ pre, isWs c = true) ∧ (∀ c ∈ suf, isWs c = true)) ∧
    (∀ c, (trim t).head? = some c → isWs c = false) ∧
    (∀ c, (trim t).getLast? = some c → isWs c = false)

/-- 30_encoding.md R51: a text of whitespace alone has no token; a run of other characters that whitespace or the end of
the text follows is the first token, whatever whitespace stands before it; trimming changes no token. -/
def Obligations.TokensAreTheMaximalRuns : Prop :=
  (∀ t : Text, (∀ c ∈ t, isWs c = true) → tokens t = []) ∧
  (∀ gap run rest : Text, (∀ c ∈ gap, isWs c = true) → run ≠ [] → (∀ c ∈ run, isWs c = false) →
    (∀ c, rest.head? = some c → isWs c = true) → tokens (gap ++ run ++ rest) = run :: tokens rest)

/-- Trimming changes no token, and so no decoding (the spec's inferences in 30_encoding.md R51 and R59). -/
def Obligations.TrimmingChangesNoToken : Prop :=
  ∀ t : Text, tokens (trim t) = tokens t ∧ decode (trim t) = decode t

/-- 30_encoding.md R46: a digit string, alone or after `+` or `-`, denotes its base-10 value if that is in `Int_W`, and no
other text is an integer. -/
def Obligations.ParseIntReadsSignedDecimals : Prop :=
  (∀ ds : Text, ds ≠ [] → (∀ c ∈ ds, '0' ≤ c ∧ c ≤ '9') →
    let m : Int := ds.foldl (fun (acc : Int) c => 10 * acc + ((c.toNat : Int) - 48)) 0
    parseInt ds = (if InIntW m then some m else none) ∧
    parseInt ('+' :: ds) = (if InIntW m then some m else none) ∧
    parseInt ('-' :: ds) = (if InIntW (-m) then some (-m) else none)) ∧
  (∀ t : Text,
    (∀ ds : Text, ds ≠ [] → (∀ c ∈ ds, '0' ≤ c ∧ c ≤ '9') → t ≠ ds ∧ t ≠ '+' :: ds ∧ t ≠ '-' :: ds) →
    parseInt t = none)

/-- 30_encoding.md R48: the strict and the lenient read of a cell under the open `PARSE_TRIMS`. -/
def Obligations.CellReadsFollowParseTrims : Prop :=
  ∀ t : Text,
    cellInt t = parseInt (if Config.parseTrims then trim t else t) ∧
    (∀ v, cellInt t = some v → lenient t = v) ∧
    (cellInt t = none → lenient t = 0) ∧
    (trim t = t → cellInt t = parseInt t)

/-- 30_encoding.md R49: the written text of every `Int_W`: `"0"` for 0, else the digits of its absolute value with no
leading `0`, after `-` for a negative. -/
def Obligations.RenderIsCanonicalDecimal : Prop :=
  render 0 = ['0'] ∧
  ∀ v : Int, InIntW v →
    (∃ ds : Text, ds ≠ [] ∧ (∀ c ∈ ds, '0' ≤ c ∧ c ≤ '9') ∧ (v ≠ 0 → ds.head? ≠ some '0') ∧
      ds.foldl (fun (acc : Int) c => 10 * acc + ((c.toNat : Int) - 48)) 0 = |v| ∧
      render v = (if v < 0 then '-' :: ds else ds))

/-- A written counter reads back as its value, on every read, and needs no trimming (the spec's inference in
30_encoding.md R49). -/
def Obligations.RenderedCountersReadBack : Prop :=
  ∀ v : Int, InIntW v →
    parseInt (render v) = some v ∧ trim (render v) = render v ∧ cellInt (render v) = some v ∧ lenient (render v) = v

/-! Decoding and encoding (30_encoding.md R52 to R61) -/

/-- Decode and encode agree: every well-formed instruction is read back from its text with every operand (30_encoding.md
R52, R54, R58). -/
def Obligations.DecodeReadsBackEveryEncoding : Prop :=
  ∀ i : Instr, i.wf = true → decode (encode i) = .ok i

/-- Every mode and every literal of `Int_W` has a well-formed operand, so that the round trip covers every operand value
(30_encoding.md R54, R55, R49). -/
def Obligations.EveryLiteralHasAnOperand : Prop :=
  ∀ (m : Mode) (v : Int), InIntW v →
    (Operand.canonical m v).wf = true ∧ decodeOperand (sigilOf m :: render v) = some (Operand.canonical m v)

/-- What the decoder accepts is a well-formed instruction spelled by that instruction's own tokens (30_encoding.md R58,
R59). -/
def Obligations.DecodeAcceptsOnlyEncodings : Prop :=
  ∀ (t : Text) (i : Instr), decode t = .ok i → i.wf = true ∧ tokens t = tokens (encode i)

/-- 30_encoding.md R63: any whitespace around and any run of whitespace between the tokens spells the same instruction. -/
def Obligations.AnyWhitespaceSpellsTheSame : Prop :=
  ∀ lead gap gap' trail : Text,
    (∀ c ∈ lead ++ gap ++ gap' ++ trail, isWs c = true) → gap ≠ [] → gap' ≠ [] →
    decode (lead ++ exitKeyword ++ trail) = .ok .exit ∧
    (∀ target : Operand, target.wf = true →
      decode (lead ++ succKeyword ++ gap ++ target.text ++ trail) = .ok (.succ target)) ∧
    (∀ test jump : Operand, test.wf = true → jump.wf = true →
      decode (lead ++ beqzPredKeyword ++ gap ++ test.text ++ gap' ++ jump.text ++ trail) = .ok (.beqzPred test jump))

/-- A text the integer parse accepts, after trimming or not, does not decode, so a cell read as an integer is data at
fetch, and a cell that holds an instruction reads as the counter 0 (the spec's inferences in 30_encoding.md R61 and
42_beqz_pred.md R79). -/
def Obligations.IntegerTextsNeverDecode : Prop :=
  ∀ t : Text,
    ((parseInt t).isSome = true → decode t = .error .notAnInstruction) ∧
    ((parseInt (trim t)).isSome = true → decode (trim t) = .error .notAnInstruction) ∧
    ((cellInt t).isSome = true → classify t = .data) ∧
    (∀ i, decode t = .ok i → lenient t = 0)

/-- 30_encoding.md R54: a second sigil is malformed, so multi-level indirection is rejected at decode. -/
def Obligations.SecondSigilIsRejected : Prop :=
  ∀ (k : Char) (m : Mode) (rest : Text), decodeOperand (k :: sigilOf m :: rest) = none

/-- Words written out from 30_encoding.md R52 and spec/95_test_vectors.md V-D2, V-D6, V-D11a, V-D16. The last clause, the
table word of `exit`, is the model's choice and no rule of the spec: the spec has no binary form of an instruction, and the
layout is that of log 7. -/
def Obligations.WrittenOutWordsDecode : Prop :=
  decode "  exit ".toList = .ok .exit ∧
  decode "succ\t$-3".toList = .ok (.succ { mode := .direct, lit := -3, text := "$-3".toList }) ∧
  decode "beqz-pred &3 &4".toList = .ok (.beqzPred { mode := .indirect, lit := 3, text := "&3".toList }
    { mode := .indirect, lit := 4, text := "&4".toList }) ∧
  decode "succ $9223372036854775808".toList = .error .notAnInstruction ∧
  decodeTableWord 32 0x74697865 = some .exit

/-! Operands (20_memory.md R31 to R37) -/

/-- 20_memory.md R31: BSA admits exactly the addresses of `[0, N)`. -/
def Obligations.CheckAdmitsExactlyTheCells : Prop :=
  ∀ (s : State) (a : Int),
    ((a < 0 ∨ (s.mem.length : Int) ≤ a) → check s a = .error (.outOfBounds a s.mem.length)) ∧
    ((0 ≤ a ∧ a < (s.mem.length : Int)) → check s a = .ok ())

/-- 20_memory.md R34, R36, R37: a direct operand gives its literal; an indirect one checks the literal, reads the pointer
cell strictly, and gives its integer unchecked. -/
def Obligations.ResolveSelectsDirectOrIndirect : Prop :=
  ∀ (s : State) (op : Operand),
    (op.mode = .direct → resolve s op = .ok op.lit) ∧
    (op.mode = .indirect → ¬ s.hasCell op.lit → resolve s op = .error (.outOfBounds op.lit s.memSize)) ∧
    (∀ t, op.mode = .indirect → s.cell op.lit = some t → cellInt t = none →
      resolve s op = .error (.malformedIndirectTarget op.lit t)) ∧
    (∀ t a, op.mode = .indirect → s.cell op.lit = some t → cellInt t = some a → resolve s op = .ok a)

/-! succ (41_succ.md) -/

/-- 41_succ.md R77: below `INT_MAX` the cell at the resolved address gets `Render(v + 1)` and nothing else but `pc`
changes, so the instruction completes; at `INT_MAX` it faults with no write. `v` is the lenient read (R75). -/
def Obligations.SuccIncrementsTheCounter : Prop :=
  ∀ (s : State) (target : Operand) (a : Int) (t : Text),
    resolve s target = .ok a → s.cell a = some t →
    (lenient t ≠ Config.intMax → ∃ s', exec (.succ target) s = .next s' ∧
      s'.cell a = some (render (lenient t + 1)) ∧ (∀ b, b ≠ a → s'.cell b = s.cell b) ∧
      s'.memSize = s.memSize ∧ s'.pc = s.pc + 1 ∧ s'.fault = s.fault) ∧
    (lenient t = Config.intMax →
      exec (.succ target) s = .next (s.takeFault (.arithmeticOverflow a Config.intMax)))

/-- 41_succ.md R75, 60_exceptions.md R86: the faults of `succ` before its overflow, in check order. -/
def Obligations.SuccFaultsInCheckOrder : Prop :=
  ∀ (s : State) (target : Operand),
    (target.mode = .indirect → ¬ s.hasCell target.lit →
      exec (.succ target) s = .next (s.takeFault (.outOfBounds target.lit s.memSize))) ∧
    (∀ t, target.mode = .indirect → s.cell target.lit = some t → cellInt t = none →
      exec (.succ target) s = .next (s.takeFault (.malformedIndirectTarget target.lit t))) ∧
    (∀ a, resolve s target = .ok a → ¬ s.hasCell a →
      exec (.succ target) s = .next (s.takeFault (.outOfBounds a s.memSize)))

/-- The frame of `succ`: every cell but the one at the resolved address, and `N`, are unchanged, and the latch is
unchanged unless the instruction faults, which changes nothing else (10_state.md R28, 20_memory.md R33). -/
def Obligations.SuccFrame : Prop :=
  ∀ (s s' : State) (target : Operand), exec (.succ target) s = .next s' →
    (∀ b, (∀ a, resolve s target = .ok a → b ≠ a) → s'.cell b = s.cell b) ∧
    s'.memSize = s.memSize ∧
    (s'.fault = s.fault ∨ ∃ f, s' = s.takeFault f)

/-! beqz-pred (42_beqz_pred.md) -/

/-- The zero path of 42_beqz_pred.md R78: `pc` becomes the resolved, admitted jump address and nothing else changes. -/
def Obligations.BeqzPredBranchesOnZero : Prop :=
  ∀ (s : State) (test jump : Operand) (ta ja : Int) (t : Text),
    resolve s test = .ok ta → s.cell ta = some t → lenient t = 0 →
    resolve s jump = .ok ja → s.hasCell ja →
    ∃ s', exec (.beqzPred test jump) s = .next s' ∧ s'.pc = ja ∧ s'.mem = s.mem ∧ s'.fault = s.fault

/-- 42_beqz_pred.md R81: a counter that is not zero and above `INT_MIN` gets `Render(v - 1)` and nothing else but `pc`
changes, whatever the jump operand; at `INT_MIN` the instruction faults with no write; at zero no cell is written. -/
def Obligations.BeqzPredDecrementsNonZero : Prop :=
  ∀ (s : State) (test jump : Operand) (ta : Int) (t : Text),
    resolve s test = .ok ta → s.cell ta = some t →
    (lenient t ≠ 0 → lenient t ≠ Config.intMin → ∃ s', exec (.beqzPred test jump) s = .next s' ∧
      s'.cell ta = some (render (lenient t - 1)) ∧ (∀ b, b ≠ ta → s'.cell b = s.cell b) ∧
      s'.memSize = s.memSize ∧ s'.pc = s.pc + 1 ∧ s'.fault = s.fault) ∧
    (lenient t = Config.intMin →
      exec (.beqzPred test jump) s = .next (s.takeFault (.arithmeticOverflow ta Config.intMin))) ∧
    (lenient t = 0 → ∃ s', exec (.beqzPred test jump) s = .next s' ∧ s'.mem = s.mem)

/-- 42_beqz_pred.md R78, 60_exceptions.md R86: the faults of `beqz-pred` before its overflow, in check order: the test
operand's, then on the zero path the jump operand's. -/
def Obligations.BeqzPredFaultsInCheckOrder : Prop :=
  ∀ (s : State) (test jump : Operand),
    (test.mode = .indirect → ¬ s.hasCell test.lit →
      exec (.beqzPred test jump) s = .next (s.takeFault (.outOfBounds test.lit s.memSize))) ∧
    (∀ t, test.mode = .indirect → s.cell test.lit = some t → cellInt t = none →
      exec (.beqzPred test jump) s = .next (s.takeFault (.malformedIndirectTarget test.lit t))) ∧
    (∀ ta, resolve s test = .ok ta → ¬ s.hasCell ta →
      exec (.beqzPred test jump) s = .next (s.takeFault (.outOfBounds ta s.memSize))) ∧
    (∀ ta c, resolve s test = .ok ta → s.cell ta = some c → lenient c = 0 →
      (jump.mode = .indirect → ¬ s.hasCell jump.lit →
        exec (.beqzPred test jump) s = .next (s.takeFault (.outOfBounds jump.lit s.memSize))) ∧
      (∀ t, jump.mode = .indirect → s.cell jump.lit = some t → cellInt t = none →
        exec (.beqzPred test jump) s = .next (s.takeFault (.malformedIndirectTarget jump.lit t))) ∧
      (∀ ja, resolve s jump = .ok ja → ¬ s.hasCell ja →
        exec (.beqzPred test jump) s = .next (s.takeFault (.outOfBounds ja s.memSize))))

/-- The frame of `beqz-pred`: every cell but the one at the resolved test address, and `N`, are unchanged; on the zero
path all of memory is; the latch is unchanged unless the instruction faults, which changes nothing else. -/
def Obligations.BeqzPredFrame : Prop :=
  ∀ (s s' : State) (test jump : Operand), exec (.beqzPred test jump) s = .next s' →
    (∀ b, (∀ ta, resolve s test = .ok ta → b ≠ ta) → s'.cell b = s.cell b) ∧
    (∀ ta t, resolve s test = .ok ta → s.cell ta = some t → lenient t = 0 → s'.mem = s.mem) ∧
    s'.memSize = s.memSize ∧
    (s'.fault = s.fault ∨ ∃ f, s' = s.takeFault f)

/-- 42_beqz_pred.md R79 (C4): with a non-zero counter the jump operand is never resolved, so it does not matter. -/
def Obligations.NonZeroTestIgnoresJumpOperand : Prop :=
  ∀ (s : State) (test jump jump' : Operand) (ta : Int) (t : Text),
    resolve s test = .ok ta → s.cell ta = some t → lenient t ≠ 0 →
    exec (.beqzPred test jump) s = exec (.beqzPred test jump') s

/-! exit (43_exit.md) -/

/-- 43_exit.md R82, R83, 10_state.md R26: `exit` changes nothing, in every state; a STEP at an `exit` cell reports Halt,
a RUN of at least one step ends Halted, and the core halts again each time. -/
def Obligations.ExitHaltsAndChangesNothing : Prop :=
  (∀ s : State, exec .exit s = .next s) ∧
  (∀ (s : State) (c : Text), s.fault = none → s.cell s.pc = some c → decode (trim c) = .ok .exit →
    step s = .next s ∧ stepTransaction s = (.halt, s) ∧ ∀ n, runTransaction (n + 1) s = (.halted, s))

/-! The step (40_dispatch.md) -/

/-- A step runs the decoded instruction: in a live core whose cell at `pc` decodes to a well-formed instruction, the step
is that instruction's `exec` at the same state (40_dispatch.md R65 to R68). -/
def Obligations.StepRunsTheDecodedInstruction : Prop :=
  ∀ (s : State) (c : Text) (i : Instr), s.fault = none → s.cell s.pc = some c → decode (trim c) = .ok i →
    i.wf = true → step s = exec i s

/-- 40_dispatch.md R66: a `pc` outside `[0, N)` faults at fetch; else the current text of the cell at `pc` is what the
step classifies. -/
def Obligations.FetchChecksPc : Prop :=
  ∀ s : State, s.fault = none →
    ((s.pc < 0 ∨ (s.memSize : Int) ≤ s.pc) → step s = .next (s.takeFault (.outOfBounds s.pc s.memSize))) ∧
    (∀ c i, s.cell s.pc = some c → classify c = .code i → fetchDecode s = .ok i)

/-- 30_encoding.md R60 and 40_dispatch.md R67: the class of the text at `pc`, by the decoder and the strict read, and what
the step does with it. A text that decodes goes to the dispatcher; one that does not is data where `CellInt` reads an
integer and invalid where it reads none, and faults as that with the untrimmed text. -/
def Obligations.DecodeStageFaults : Prop :=
  ∀ (s : State) (c : Text), s.fault = none → s.cell s.pc = some c →
    (classify c = .data → step s = .next (s.takeFault (.executingData s.pc c))) ∧
    (classify c = .invalid → step s = .next (s.takeFault (.invalidInstruction s.pc c))) ∧
    (∀ i, classify c = .code i → step s = exec i s) ∧
    (∀ i, decode (trim c) = .ok i → step s = exec i s) ∧
    (∀ v, decode (trim c) = .error .notAnInstruction → cellInt c = some v →
      step s = .next (s.takeFault (.executingData s.pc c))) ∧
    (decode (trim c) = .error .notAnInstruction → cellInt c = none →
      step s = .next (s.takeFault (.invalidInstruction s.pc c)))

/-- The spec's inference in 30_encoding.md R60, by the choice of 90_conflicts.md C2: an optionally signed digit string whose
value is outside `Int_W` is an invalid instruction when it is fetched, not data. -/
def Obligations.OutOfRangeDigitsAreInvalid : Prop :=
  ∀ (s : State) (c ds : Text), s.fault = none → s.cell s.pc = some c →
    ds ≠ [] → (∀ d ∈ ds, '0' ≤ d ∧ d ≤ '9') →
    let m : Int := ds.foldl (fun (acc : Int) d => 10 * acc + ((d.toNat : Int) - 48)) 0
    ((c = ds ∨ c = '+' :: ds) ∧ ¬ InIntW m) ∨ (c = '-' :: ds ∧ ¬ InIntW (-m)) →
    step s = .next (s.takeFault (.invalidInstruction s.pc c))

/-- Every instruction has a next state in every state, and a step is refused never and stopped only by a latched fault
(60_exceptions.md R99; that a latched fault stops `step` is the model's form, log 4). -/
def Obligations.EveryStepHasOneOutcome : Prop :=
  (∀ (i : Instr) (s : State), ∃ s', exec i s = .next s') ∧
  (∀ s : State, (∃ s', step s = .next s') ∨ ∃ f, s.fault = some f ∧ step s = .fault f)

/-- 40_dispatch.md R71: `exit` answers Halt, `succ` and `beqz-pred` answer Continue on either path, and a faulting step
answers the fault it latches. -/
def Obligations.StepResultsAreTheInstructions : Prop :=
  ∀ s : State, s.fault = none →
    ((stepTransaction s).1 = .halt ↔ fetchDecode s = .ok .exit) ∧
    ((stepTransaction s).1 = .cont ↔
      (∃ i, i ≠ .exit ∧ fetchDecode s = .ok i) ∧ (stepTransaction s).2.fault = none) ∧
    (∀ f, (stepTransaction s).1 = .fault f ↔ (stepTransaction s).2.fault = some f)

/-- The host's `step` and the transaction STEP leave the same state in a live core; in a faulted core `step` answers the
latched fault (40_dispatch.md R65; the form of `step` is the model's, log 4). -/
def Obligations.StepAgreesWithStepTransaction : Prop :=
  ∀ s : State,
    (s.fault = none → step s = .next (stepTransaction s).2) ∧
    (∀ f, s.fault = some f → step s = .fault f)

/-- A step that commits came from a valid `pc` and leaves `pc` in `[0, N]`: at most one past the last cell (10_state.md
R17, 40_dispatch.md R69). -/
def Obligations.CommittedPcStaysAtMemory : Prop :=
  ∀ s s' : State, step s = .next s' → s'.fault = none →
    s.hasCell s.pc ∧ 0 ≤ s'.pc ∧ s'.pc ≤ s'.memSize

/-! Memory over a step (10_state.md R18, R19, 20_memory.md R43) -/

/-- 10_state.md R18: CONSTRUCT fixes the cells and their number, and no instruction and no other transaction changes the
number. -/
def Obligations.OnlyConstructChangesMemorySize : Prop :=
  (∀ (s : State) (pc0 : Int) (image : List Text),
    (transact (.construct pc0 image) s).2.memSize = image.length ∧
    ∀ k : Nat, (transact (.construct pc0 image) s).2.cell k = image[k]?) ∧
  (∀ (i : Instr) (s s' : State), exec i s = .next s' → s'.memSize = s.memSize) ∧
  (∀ (t : Transaction) (s : State), (∀ pc0 image, t ≠ .construct pc0 image) →
    (transact t s).2.memSize = s.memSize)

/-- 10_state.md R19: a cell a step has changed holds the canonical text of an `Int_W`. -/
def Obligations.WrittenCellsAreCanonicalCounters : Prop :=
  ∀ (s s' : State) (a : Int), step s = .next s' → s'.cell a ≠ s.cell a →
    ∃ v, InIntW v ∧ s'.cell a = some (render v)

/-- 70_reset_and_hazards.md R109: a cell that holds a written counter is data when it is fetched. -/
def Obligations.WrittenCellFaultsAsData : Prop :=
  ∀ (s : State) (v : Int), InIntW v → s.fault = none → s.cell s.pc = some (render v) →
    step s = .next (s.takeFault (.executingData s.pc (render v)))

/-- 20_memory.md R43: a `succ` that writes the cell the next step fetches is seen by that fetch. -/
def Obligations.FetchSeesTheLatestWrite : Prop :=
  ∀ (s s' : State) (c t : Text) (target : Operand), s.fault = none →
    s.cell s.pc = some c → decode (trim c) = .ok (.succ target) →
    resolve s target = .ok (s.pc + 1) → s.cell (s.pc + 1) = some t → lenient t ≠ Config.intMax →
    step s = .next s' →
    step s' = .next (s'.takeFault (.executingData (s.pc + 1) (render (lenient t + 1))))

/-! Faults (60_exceptions.md) -/

/-- 60_exceptions.md R88: a step that raises a fault latches it and changes nothing else, and a RUN in progress answers
it at once. -/
def Obligations.FaultEntryIsPrecise : Prop :=
  ∀ (s s' : State) (f : Fault), s.fault = none → stepTransaction s = (.fault f, s') →
    s' = { s with fault := some f } ∧ (∀ n, runTransaction (n + 1) s = (.faulted f, s'))

/-- 60_exceptions.md R89: while a fault is latched, STEP and RUN execute nothing and answer it, and no transaction but
CONSTRUCT changes the state; CONSTRUCT clears the latch. -/
def Obligations.FaultLatchIsSticky : Prop :=
  ∀ (s : State) (f : Fault), s.fault = some f →
    stepTransaction s = (.fault f, s) ∧
    (∀ n, runTransaction n s = (.faulted f, s)) ∧
    (∀ t : Transaction, (∀ pc0 image, t ≠ .construct pc0 image) → (transact t s).2 = s) ∧
    (∀ pc0 image, (transact (.construct pc0 image) s).2.fault = none)

/-- 60_exceptions.md R84, R85 and 20_memory.md R38: every record a step latches is one of the five kinds that are raised,
and its values are what the state shows; MalformedAddress is never raised. -/
def Obligations.LatchedRecordsTellTheTruth : Prop :=
  ∀ (s s' : State) (f : Fault), step s = .next s' → s'.fault = some f →
    f.describes s' ∧ f.kind ≠ .malformedAddress

/-- 60_exceptions.md R84: the code of each kind. -/
def Obligations.FaultCodesAreTheListed : Prop :=
  ∀ (s : State) (f : Fault), s.fault = some f →
    (s.faultCode = match f with
      | .outOfBounds _ _ => 1
      | .invalidInstruction _ _ => 2
      | .executingData _ _ => 3
      | .malformedAddress _ => 4
      | .malformedIndirectTarget _ _ => 5
      | .arithmeticOverflow _ _ => 6)

/-! Runs (40_dispatch.md R72 to R74) -/

/-- A run that exhausts its budget continues where it stopped; one that halts or faults is not changed by more budget
(40_dispatch.md R72, R73). -/
def Obligations.RunsCompose : Prop :=
  ∀ (m n : Nat) (s : State),
    ((runTransaction m s).1 = .exhausted →
      runTransaction (m + n) s = runTransaction n (runTransaction m s).2) ∧
    ((runTransaction m s).1 ≠ .exhausted → runTransaction (m + n) s = runTransaction m s)

/-- 40_dispatch.md R74: a Halted run stands at an `exit` cell of a live core, a Faulted one has latched its fault, an
Exhausted one is live and each of its steps answered Continue. -/
def Obligations.RunEndsAsItsResultSays : Prop :=
  ∀ (n : Nat) (s : State),
    ((runTransaction n s).1 = .halted →
      (runTransaction n s).2.fault = none ∧ fetchDecode (runTransaction n s).2 = .ok .exit) ∧
    (∀ f, (runTransaction n s).1 = .faulted f → (runTransaction n s).2.fault = some f) ∧
    ((runTransaction n s).1 = .exhausted →
      (runTransaction n s).2.fault = none ∧
      ∀ k, k < n → (stepTransaction (runTransaction k s).2).1 = .cont)

/-! Reset, images and the invariants (70_reset_and_hazards.md) -/

/-- 70_reset_and_hazards.md R100: CONSTRUCT sets every piece of state from its arguments alone. -/
def Obligations.ConstructSetsTheWholeState : Prop :=
  ∀ (s : State) (pc0 : Int) (image : List Text),
    let s' := (transact (.construct pc0 image) s).2
    s'.memSize = image.length ∧ (∀ k : Nat, k < image.length → s'.cell k = image[k]?) ∧
    s'.pc = pc0 ∧ s'.fault = none

/-- 10_state.md R25: the queries answer the state and leave it. -/
def Obligations.QueriesOnlyRead : Prop :=
  ∀ s : State,
    transact .queryPc s = (.pc s.pc, s) ∧
    transact .queryMem s = (.mem ((List.range s.memSize).map fun k : Nat => s.memRead (k : Int)), s) ∧
    transact .queryFault s = (.fault s.fault, s)

/-- The model's reset state is `CONSTRUCT(0, [])`, whose first step faults at fetch (the values are the model's choice,
log 3). -/
def Obligations.ResetIsTheEmptyConstruct : Prop :=
  State.reset = construct 0 [] ∧ State.reset.sound ∧ State.reset.allCellsTrimmed ∧
  step State.reset = .next (State.reset.takeFault (.outOfBounds 0 0))

/-- A table word that decodes is the instruction the very next step runs, wherever `pc` stands (the layout is the
model's, log 7). -/
def Obligations.PlacedWordIsTheNextInstruction : Prop :=
  ∀ (s : State) (nbits w : Nat) (i : Instr), decodeTableWord nbits w = some i →
    step (s.withFetchWord nbits w) = exec i (s.withFetchWord nbits w)

/-- The invariant every step keeps, from every state: `pc` in `Int_W`, `N` within its bound, and a fault latch that tells
the truth (10_state.md R17, 40_dispatch.md R69, 60_exceptions.md R85). -/
def Obligations.StepKeepsSoundStates : Prop :=
  ∀ s s' : State, s.sound → step s = .next s' → s'.sound

/-- Every transaction keeps the invariant: RUN of any length, and CONSTRUCT with the arguments the host may give
(70_reset_and_hazards.md R100, R105). -/
def Obligations.TransactionsKeepSoundStates : Prop :=
  ∀ (t : Transaction) (s : State), s.sound →
    (∀ pc0 image, t = .construct pc0 image → InIntW pc0 ∧ (image.length : Int) ≤ Config.intMax) →
    (transact t s).2.sound

/-- The launch premise (70_reset_and_hazards.md R106, the spec's inference): it holds after CONSTRUCT with a loaded image, every step keeps it, so
it holds at every state a run from such a launch reaches, and under it the strict read of a cell does not depend on
`PARSE_TRIMS`. -/
def Obligations.LaunchPremiseHoldsAndIsKept : Prop :=
  (∀ (pc0 : Int) (text : Text), (construct pc0 (loadImage text)).allCellsTrimmed) ∧
  (∀ s s' : State, s.allCellsTrimmed → step s = .next s' → s'.allCellsTrimmed) ∧
  (∀ (n : Nat) (pc0 : Int) (text : Text),
    (runTransaction n (construct pc0 (loadImage text))).2.allCellsTrimmed) ∧
  (∀ s : State, s.allCellsTrimmed → ∀ c ∈ s.mem, cellInt c = parseInt c)

/-- 70_reset_and_hazards.md R104: the image is the trimmed lines of the text, in order, without the blank ones. -/
def Obligations.LoadImageKeepsNonBlankLines : Prop :=
  ∀ (first : Text) (rest : List Text), (∀ l ∈ first :: rest, '\n' ∉ l) →
    loadImage (first ++ (rest.map fun l => '\n' :: l).flatten) =
      ((first :: rest).map trim).filter fun l => decide (l ≠ [])
end

