-- ==== Sys2Proof/Laws/State.lean ====
section
/-! SUPPORT. The field lemmas of every update of State, so that no later proof unfolds a record update. -/

namespace Sys2Proof.Machine

section TakeFault
variable (s : State) (f : Fault) (a : Int)

@[simp] theorem takeFault_pc : (s.takeFault f).pc = s.pc := rfl
@[simp] theorem takeFault_mem : (s.takeFault f).mem = s.mem := rfl
@[simp] theorem takeFault_fault : (s.takeFault f).fault = some f := rfl
@[simp] theorem takeFault_memSize : (s.takeFault f).memSize = s.memSize := rfl
@[simp] theorem takeFault_cell : (s.takeFault f).cell a = s.cell a := rfl
@[simp] theorem takeFault_memRead : (s.takeFault f).memRead a = s.memRead a := rfl

end TakeFault

section Commit
variable (s : State) (w : Option (Int × Text)) (sel : PcSelect) (a : Int) (t : Text)

@[simp] theorem commit_pc : (commit s w sel).pc = nextPc s.pc sel := rfl
@[simp] theorem commit_fault : (commit s w sel).fault = s.fault := rfl
@[simp] theorem commit_mem_none : (commit s none sel).mem = s.mem := rfl
@[simp] theorem commit_mem_some : (commit s (some (a, t)) sel).mem = s.mem.write a t := rfl
@[simp] theorem commit_none_memSize : (commit s none sel).memSize = s.memSize := rfl
@[simp] theorem commit_none_cell : (commit s none sel).cell a = s.cell a := rfl
@[simp] theorem commit_none_hold : commit s none .hold = s := rfl

end Commit

section NextPc
variable (pc target : Int)

@[simp] theorem nextPc_inc : nextPc pc .inc = pc + 1 := rfl
@[simp] theorem nextPc_load : nextPc pc (.load target) = target := rfl
@[simp] theorem nextPc_hold : nextPc pc .hold = pc := rfl

end NextPc

section Construct
variable (pc0 : Int) (image : List Text)

@[simp] theorem construct_pc : (construct pc0 image).pc = pc0 := rfl
@[simp] theorem construct_mem : (construct pc0 image).mem = image := rfl
@[simp] theorem construct_fault : (construct pc0 image).fault = none := rfl
@[simp] theorem construct_memSize : (construct pc0 image).memSize = image.length := rfl

/-- The reset state is a constructed state (log 3). -/
theorem reset_eq_construct : State.reset = construct 0 [] := rfl

end Construct

@[simp] theorem settle_ok (s s' : State) (g : Signal) : settle s (.ok (g, s')) = .next s' := rfl
@[simp] theorem settle_error (s : State) (f : Fault) : settle s (.error f) = .next (s.takeFault f) := rfl

end Sys2Proof.Machine
end

