-- ==== Sys2Proof/Laws/Memory.lean ====
section
/-! SUPPORT. The cell array: read after write, and every memory operation keeps `Memory.wf`. -/

namespace Sys2Proof.Machine

/-- A valid address is one that has a cell. -/
theorem hasCell_iff_cell {s : State} {a : Int} : s.hasCell a ↔ ∃ t, s.cell a = some t := by
  unfold State.hasCell State.cell State.memSize
  constructor
  · rintro ⟨h0, h1⟩
    refine ⟨s.mem[a.toNat]'(by omega), ?_⟩
    simp [show ¬ a < 0 by omega]
  · rintro ⟨t, ht⟩
    split at ht
    · cases ht
    · have := (List.getElem?_eq_some_iff.mp ht).1
      omega

theorem hasCell_of_cell {s : State} {a : Int} {t : Text} (h : s.cell a = some t) : s.hasCell a :=
  hasCell_iff_cell.mpr ⟨t, h⟩

theorem cell_eq_none {s : State} {a : Int} (h : ¬ s.hasCell a) : s.cell a = none := by
  cases hc : s.cell a with
  | none => rfl
  | some t => exact absurd (hasCell_of_cell hc) h

/-- The read of an existing cell gives its text. -/
theorem memRead_of_cell {s : State} {a : Int} {t : Text} (h : s.cell a = some t) : s.memRead a = t := by
  simp [State.memRead, h]

theorem cell_of_hasCell {s : State} {a : Int} (h : s.hasCell a) : s.cell a = some (s.memRead a) := by
  obtain ⟨t, ht⟩ := hasCell_iff_cell.mp h
  rw [ht, memRead_of_cell ht]

@[simp] theorem write_length (m : Memory) (a : Int) (t : Text) : (m.write a t).length = m.length := by
  unfold Memory.write
  split <;> simp

@[simp] theorem commit_memSize (s : State) (w : Option (Int × Text)) (sel : PcSelect) :
    (commit s w sel).memSize = s.memSize := by
  cases w <;> simp [State.memSize, commit]

/-- A write to an existing cell is read back. -/
theorem commit_cell_same {s : State} {a : Int} {t : Text} {sel : PcSelect} (h : s.hasCell a) :
    (commit s (some (a, t)) sel).cell a = some t := by
  obtain ⟨h0, h1⟩ := h
  have h1' : a.toNat < s.mem.length := by unfold State.memSize at h1; omega
  simp [State.cell, Memory.write, show ¬ a < 0 by omega, h1']

/-- A write leaves every other cell alone. -/
theorem commit_cell_other {s : State} {a b : Int} {t : Text} {sel : PcSelect} (h : b ≠ a) :
    (commit s (some (a, t)) sel).cell b = s.cell b := by
  by_cases hb : b < 0
  · simp [State.cell, hb]
  · by_cases ha : a < 0
    · simp [State.cell, Memory.write, ha]
    · have : a.toNat ≠ b.toNat := by omega
      simp [State.cell, Memory.write, ha, hb, this]

/-- The texts of a written memory are the written one and old ones. -/
theorem mem_of_mem_write {m : Memory} {a : Int} {t c : Text} (h : c ∈ m.write a t) : c ∈ m ∨ c = t := by
  unfold Memory.write at h
  split at h
  · exact .inl h
  · exact List.mem_or_eq_of_mem_set h

/-- A cell's text is one of the memory's. -/
theorem mem_of_cell {s : State} {a : Int} {t : Text} (h : s.cell a = some t) : t ∈ s.mem := by
  unfold State.cell at h
  split at h
  · cases h
  · exact List.mem_of_getElem? h

theorem write_wf {m : Memory} (a : Int) (t : Text) (h : m.wf) : (m.write a t).wf := by
  simpa [Memory.wf] using h

theorem commit_memory_wf {s : State} (w : Option (Int × Text)) (sel : PcSelect) (h : s.mem.wf) :
    (commit s w sel).mem.wf := by
  cases w with
  | none => exact h
  | some p => exact write_wf p.1 p.2 h

theorem takeFault_memory_wf {s : State} (f : Fault) (h : s.mem.wf) : (s.takeFault f).mem.wf := h

theorem construct_memory_wf {pc0 : Int} {image : List Text} (h : (image.length : Int) ≤ Config.intMax) :
    (construct pc0 image).mem.wf := h

theorem reset_memory_wf : State.reset.mem.wf := by decide

end Sys2Proof.Machine
end

