-- ==== Sys2Proof/Laws/Text.lean ====
section
/-! SUPPORT. The text layer: the integer reads, whitespace and tokens. -/

namespace Sys2Proof

theorem intMin_eq : Config.intMin = -9223372036854775808 := by decide
theorem intMax_eq : Config.intMax = 9223372036854775807 := by decide

/-- `cellInt` is R48's `ParseInt(PARSE_TRIMS ? Trim(t) : t)`. -/
theorem cellInt_eq (t : Text) : cellInt t = parseInt (if Config.parseTrims then trim t else t) := by
  unfold cellInt
  split
  · next h => split <;> simp [h]
  · split <;> rfl

/-- Both settings of `PARSE_TRIMS` agree on a trimmed cell (30_encoding.md R48). -/
theorem cellInt_of_trimmed {t : Text} (h : trim t = t) : cellInt t = parseInt t := by
  simp [cellInt, h]

/-- The strict parse stays within `Int_W`. -/
theorem parseInt_inIntW {t : Text} {v : Int} (h : parseInt t = some v) : InIntW v := by
  unfold parseInt at h
  split at h
  · next hc => cases h; exact hc.2
  · cases h

theorem cellInt_inIntW {t : Text} {v : Int} (h : cellInt t = some v) : InIntW v := by
  rw [cellInt_eq] at h
  exact parseInt_inIntW h

theorem lenient_inIntW (t : Text) : InIntW (lenient t) := by
  unfold lenient
  cases h : cellInt t with
  | none => decide
  | some v => exact cellInt_inIntW h

theorem lenient_of_cellInt {t : Text} {v : Int} (h : cellInt t = some v) : lenient t = v := by
  simp [lenient, h]

theorem lenient_of_none {t : Text} (h : cellInt t = none) : lenient t = 0 := by
  simp [lenient, h]

/-- No digit is whitespace. -/
theorem isWs_of_isDigit {c : Char} (h : c.isDigit) : isWs c = false := by
  have hd : 48 ≤ c.toNat ∧ c.toNat ≤ 57 := by
    simpa [Char.isDigit, UInt32.le_iff_toNat_le] using h
  unfold isWs
  simp only [Bool.or_eq_false_iff, Bool.and_eq_false_iff, decide_eq_false_iff_not, beq_eq_false_iff_ne]
  omega

theorem tokens_cons_ws {c : Char} (cs : Text) (h : isWs c = true) : tokens (c :: cs) = tokens cs := by
  simp [tokens, h]

theorem tokens_cons_last {c : Char} {cs : Text} (h : isWs c = false) (hcs : tokens cs = []) :
    tokens (c :: cs) = [[c]] := by
  cases cs <;> simp [tokens, h] at hcs ⊢
  simp [hcs]

/-- Whitespace before a text adds no token. -/
theorem tokens_append_ws_left {w : Text} (rest : Text) (h : ∀ c ∈ w, isWs c = true) :
    tokens (w ++ rest) = tokens rest := by
  induction w with
  | nil => rfl
  | cons c cs ih =>
    rw [List.cons_append, tokens_cons_ws _ (h c (by simp))]
    exact ih fun d hd => h d (by simp [hd])

/-- A run of non-whitespace characters that whitespace or the end follows is the first token. -/
theorem tokens_run {w rest : Text} (hne : w ≠ []) (h : ∀ c ∈ w, isWs c = false)
    (hrest : ∀ d, rest.head? = some d → isWs d = true) : tokens (w ++ rest) = w :: tokens rest := by
  induction w with
  | nil => exact absurd rfl hne
  | cons c cs ih =>
    have hc : isWs c = false := h c (by simp)
    cases cs with
    | nil =>
      cases rest with
      | nil => simp [tokens, hc]
      | cons d ds =>
        have hd : isWs d = true := hrest d rfl
        cases hts : tokens (d :: ds) with
        | nil => exact tokens_cons_last hc hts
        | cons t ts => simp [tokens, hc, hd] at hts ⊢; simp [hts, hd]
    | cons e es =>
      have he : isWs e = false := h e (by simp)
      have hes : tokens (e :: es ++ rest) = (e :: es) :: tokens rest :=
        ih (by simp) fun d hd => h d (by simp [hd])
      rw [List.cons_append, tokens, hes]
      simp [hc, he]

end Sys2Proof
end

