-- ==== Sys2Proof/Laws/Ops.lean ====
section
/-! SUPPORT. What each shared operation can do, said once: BSA, ARM, the counter reads, the three bodies, the fetch. -/

namespace Sys2Proof.Machine

theorem check_of_hasCell {s : State} {a : Int} (h : s.hasCell a) : check s a = .ok () := by
  obtain ⟨h0, h1⟩ := h
  simp [check, show ¬ a < 0 by omega, show ¬ (s.memSize : Int) ≤ a by omega]

theorem check_of_not_hasCell {s : State} {a : Int} (h : ¬ s.hasCell a) :
    check s a = .error (.outOfBounds a s.memSize) := by
  have : a < 0 ∨ (s.memSize : Int) ≤ a := by
    by_contra hn
    exact h ⟨by omega, by omega⟩
  simp [check, this]

/-- All that `Check` can answer. -/
theorem check_cases (s : State) (a : Int) :
    (s.hasCell a ∧ check s a = .ok ()) ∨ (¬ s.hasCell a ∧ check s a = .error (.outOfBounds a s.memSize)) := by
  by_cases h : s.hasCell a
  · exact .inl ⟨h, check_of_hasCell h⟩
  · exact .inr ⟨h, check_of_not_hasCell h⟩

/-- What `Resolve` answers when it answers an address. -/
theorem resolve_ok {s : State} {op : Operand} {a : Int} (h : resolve s op = .ok a) :
    (op.mode = .direct ∧ a = op.lit) ∨
    (op.mode = .indirect ∧ ∃ t, s.cell op.lit = some t ∧ cellInt t = some a) := by
  unfold resolve at h
  split at h
  · next hm => cases h; exact .inl ⟨hm, rfl⟩
  · next hm =>
    rcases check_cases s op.lit with ⟨hc, he⟩ | ⟨-, he⟩
    · refine .inr ⟨hm, s.memRead op.lit, cell_of_hasCell hc, ?_⟩
      rw [he] at h
      simp only [bind, Except.bind] at h
      split at h
      · cases h
      · next hv => cases h; exact hv
    · rw [he] at h; cases h

/-- What `Resolve` answers when it raises a fault. -/
theorem resolve_error {s : State} {op : Operand} {f : Fault} (h : resolve s op = .error f) :
    op.mode = .indirect ∧
    ((¬ s.hasCell op.lit ∧ f = .outOfBounds op.lit s.memSize) ∨
     ∃ t, s.cell op.lit = some t ∧ cellInt t = none ∧ f = .malformedIndirectTarget op.lit t) := by
  unfold resolve at h
  split at h
  · cases h
  · next hm =>
    refine ⟨hm, ?_⟩
    rcases check_cases s op.lit with ⟨hc, he⟩ | ⟨hc, he⟩
    · rw [he] at h
      simp only [bind, Except.bind] at h
      split at h
      · next hv => cases h; exact .inr ⟨_, cell_of_hasCell hc, hv, rfl⟩
      · cases h
    · rw [he] at h; cases h; exact .inl ⟨hc, rfl⟩

theorem readCounter_of_cell {s : State} {a : Int} {t : Text} (h : s.cell a = some t) :
    readCounter s a = lenient t := by
  rw [readCounter, memRead_of_cell h]

/-- A counter's address is out of bounds, or it is admitted and read leniently. -/
theorem counter_cases (s : State) (a : Int) :
    (¬ s.hasCell a ∧ check s a = .error (.outOfBounds a s.memSize)) ∨
    (∃ t, s.cell a = some t ∧ readCounter s a = lenient t ∧ check s a = .ok ()) := by
  rcases check_cases s a with ⟨hc, he⟩ | h
  · exact .inr ⟨_, cell_of_hasCell hc, rfl, he⟩
  · exact .inl h

/-- The fault an operand raises as an address that will be accessed: its resolution's, or its bounds check's. -/
def operandFault (s : State) (op : Operand) (f : Fault) : Prop :=
  resolve s op = .error f ∨ ∃ a, resolve s op = .ok a ∧ ¬ s.hasCell a ∧ f = .outOfBounds a s.memSize

/-- What `succ` does when it commits. -/
theorem succBody_ok {s s' : State} {op : Operand} {g : Signal} (h : succBody op s = .ok (g, s')) :
    g = .cont ∧ ∃ a t, resolve s op = .ok a ∧ s.cell a = some t ∧ lenient t ≠ Config.intMax ∧
      s' = commit s (some (a, render (lenient t + 1))) .inc := by
  unfold succBody at h
  cases hr : resolve s op with
  | error f => rw [hr] at h; cases h
  | ok a =>
    rcases counter_cases s a with ⟨-, hc⟩ | ⟨t, ht, hv, hc⟩
    · simp [hr, hc, bind, Except.bind] at h
    · simp only [hr, hc, hv, bind, Except.bind, succOverflows, beq_iff_eq] at h
      split at h
      · cases h
      · next hm => cases h; exact ⟨rfl, a, t, rfl, ht, hm, rfl⟩

/-- What `succ` does when it faults. -/
theorem succBody_error {s : State} {op : Operand} {f : Fault} (h : succBody op s = .error f) :
    operandFault s op f ∨
    ∃ a t, resolve s op = .ok a ∧ s.cell a = some t ∧ lenient t = Config.intMax ∧
      f = .arithmeticOverflow a Config.intMax := by
  unfold succBody at h
  cases hr : resolve s op with
  | error e => rw [hr] at h; cases h; exact .inl (.inl hr)
  | ok a =>
    rcases counter_cases s a with ⟨hn, hc⟩ | ⟨t, ht, hv, hc⟩
    · simp only [hr, hc, bind, Except.bind] at h
      cases h; exact .inl (.inr ⟨a, hr, hn, rfl⟩)
    · simp only [hr, hc, hv, bind, Except.bind, succOverflows, beq_iff_eq] at h
      split at h
      · next hm => cases h; exact .inr ⟨a, t, rfl, ht, hm, by rw [hm]⟩
      · cases h

/-- What `beqz-pred` does when it commits: the zero path or the decrement. -/
theorem beqzPredBody_ok {s s' : State} {test jump : Operand} {g : Signal}
    (h : beqzPredBody test jump s = .ok (g, s')) :
    g = .cont ∧ ∃ ta t, resolve s test = .ok ta ∧ s.cell ta = some t ∧
      ((lenient t = 0 ∧ ∃ ja, resolve s jump = .ok ja ∧ s.hasCell ja ∧ s' = commit s none (.load ja)) ∨
       (lenient t ≠ 0 ∧ lenient t ≠ Config.intMin ∧
         s' = commit s (some (ta, render (lenient t - 1))) .inc)) := by
  unfold beqzPredBody at h
  cases hr : resolve s test with
  | error f => rw [hr] at h; cases h
  | ok ta =>
    rcases counter_cases s ta with ⟨-, hc⟩ | ⟨t, ht, hv, hc⟩
    · simp [hr, hc, bind, Except.bind] at h
    · simp only [hr, hc, hv, bind, Except.bind, counterIsZero, predOverflows, beq_iff_eq] at h
      split at h
      · next hz =>
        cases hj : resolve s jump with
        | error f => rw [hj] at h; cases h
        | ok ja =>
          rcases check_cases s ja with ⟨hja, hk⟩ | ⟨-, hk⟩
          · simp only [hj, hk] at h
            cases h
            exact ⟨rfl, ta, t, rfl, ht, .inl ⟨hz, ja, rfl, hja, rfl⟩⟩
          · simp [hj, hk] at h
      · next hz =>
        split at h
        · cases h
        · next hm => cases h; exact ⟨rfl, ta, t, rfl, ht, .inr ⟨hz, hm, rfl⟩⟩

/-- What `beqz-pred` does when it faults: in the test operand, in the jump operand of the zero path, or by overflow. -/
theorem beqzPredBody_error {s : State} {test jump : Operand} {f : Fault}
    (h : beqzPredBody test jump s = .error f) :
    operandFault s test f ∨
    ∃ ta t, resolve s test = .ok ta ∧ s.cell ta = some t ∧
      ((lenient t = 0 ∧ operandFault s jump f) ∨
       (lenient t = Config.intMin ∧ f = .arithmeticOverflow ta Config.intMin)) := by
  unfold beqzPredBody at h
  cases hr : resolve s test with
  | error e => rw [hr] at h; cases h; exact .inl (.inl hr)
  | ok ta =>
    rcases counter_cases s ta with ⟨hn, hc⟩ | ⟨t, ht, hv, hc⟩
    · simp only [hr, hc, bind, Except.bind] at h
      cases h; exact .inl (.inr ⟨ta, hr, hn, rfl⟩)
    · refine .inr ⟨ta, t, rfl, ht, ?_⟩
      simp only [hr, hc, hv, bind, Except.bind, counterIsZero, predOverflows, beq_iff_eq] at h
      split at h
      · next hz =>
        refine .inl ⟨hz, ?_⟩
        cases hj : resolve s jump with
        | error e => rw [hj] at h; cases h; exact .inl hj
        | ok ja =>
          rcases check_cases s ja with ⟨-, hk⟩ | ⟨hja, hk⟩
          · simp [hj, hk] at h
          · simp only [hj, hk] at h
            cases h; exact .inr ⟨ja, hj, hja, rfl⟩
      · split at h
        · next hm => cases h; exact .inr ⟨hm, by rw [hm]⟩
        · cases h

/-- What a fetch that decodes has read. -/
theorem fetchDecode_ok {s : State} {i : Instr} (h : fetchDecode s = .ok i) :
    ∃ c, s.cell s.pc = some c ∧ decode (trim c) = .ok i := by
  unfold fetchDecode at h
  rcases check_cases s s.pc with ⟨hc, hk⟩ | ⟨-, hk⟩
  · refine ⟨_, cell_of_hasCell hc, ?_⟩
    simp only [hk, bind, Except.bind] at h
    split at h
    · next hi =>
      cases h
      unfold classify at hi
      split at hi
      · next hd => cases hi; exact hd
      · split at hi <;> cases hi
    · cases h
    · cases h
  · rw [hk] at h; cases h

/-- What a fetch that faults has met (40_dispatch.md R66, R67). -/
theorem fetchDecode_error {s : State} {f : Fault} (h : fetchDecode s = .error f) :
    (¬ s.hasCell s.pc ∧ f = .outOfBounds s.pc s.memSize) ∨
    ∃ c, s.cell s.pc = some c ∧
      ((classify c = .data ∧ f = .executingData s.pc c) ∨
       (classify c = .invalid ∧ f = .invalidInstruction s.pc c)) := by
  unfold fetchDecode at h
  rcases check_cases s s.pc with ⟨hc, hk⟩ | ⟨hn, hk⟩
  · refine .inr ⟨_, cell_of_hasCell hc, ?_⟩
    simp only [hk, bind, Except.bind] at h
    split at h
    · cases h
    · next hd => cases h; exact .inl ⟨hd, rfl⟩
    · next hi => cases h; exact .inr ⟨hi, rfl⟩
  · rw [hk] at h; cases h; exact .inl ⟨hn, rfl⟩

/-- A fetch from an existing cell, by the class of its text (40_dispatch.md R67). -/
theorem fetchDecode_of_cell {s : State} {c : Text} (h : s.cell s.pc = some c) :
    fetchDecode s = match classify c with
      | .code i => .ok i
      | .data => .error (.executingData s.pc c)
      | .invalid => .error (.invalidInstruction s.pc c) := by
  rw [fetchDecode, check_of_hasCell (hasCell_of_cell h), memRead_of_cell h]
  rfl

/-- All that the classifier can answer, by the decoder and the strict read (30_encoding.md R60). -/
theorem classify_cases (c : Text) :
    (∃ i, decode (trim c) = .ok i ∧ classify c = .code i) ∨
    (decode (trim c) = .error .notAnInstruction ∧ (cellInt c).isSome = true ∧ classify c = .data) ∨
    (decode (trim c) = .error .notAnInstruction ∧ cellInt c = none ∧ classify c = .invalid) := by
  unfold classify
  rcases decode (trim c) with e | i
  · cases e
    cases cellInt c with
    | some v => exact .inr (.inl ⟨rfl, rfl, rfl⟩)
    | none => exact .inr (.inr ⟨rfl, rfl, rfl⟩)
  · exact .inl ⟨i, rfl, rfl⟩

theorem classify_of_decode {c : Text} {i : Instr} (h : decode (trim c) = .ok i) : classify c = .code i := by
  simp [classify, h]

/-- `exec` settles the dispatcher's arm. -/
theorem exec_eq_settle (i : Instr) (s : State) : exec i s = settle s (dispatch i s) := by
  cases i <;> rfl

/-- All that one instruction can do: its arm commits, or its fault is entered. -/
theorem exec_next {i : Instr} {s s' : State} (h : exec i s = .next s') :
    (∃ g, dispatch i s = .ok (g, s')) ∨ ∃ f, dispatch i s = .error f ∧ s' = s.takeFault f := by
  rw [exec_eq_settle] at h
  rcases hd : dispatch i s with f | ⟨g, t⟩
  · rw [hd] at h; cases h; exact .inr ⟨f, rfl, rfl⟩
  · rw [hd] at h; cases h; exact .inl ⟨g, rfl⟩

/-- All that a step can do. -/
theorem step_next {s s' : State} (h : step s = .next s') :
    s.fault = none ∧
    ((∃ f, fetchDecode s = .error f ∧ s' = s.takeFault f) ∨
     ∃ i, fetchDecode s = .ok i ∧ exec i s = .next s') := by
  unfold step at h
  split at h
  · cases h
  · next hl =>
    refine ⟨hl, ?_⟩
    cases hf : fetchDecode s with
    | error f => rw [hf] at h; cases h; exact .inl ⟨f, rfl, rfl⟩
    | ok i => rw [hf] at h; exact .inr ⟨i, rfl, h⟩

end Sys2Proof.Machine
end

