-- ==== Sys2Proof/Laws/PerInstr.lean ====
section
/-! SUPPORT. Statements about every instruction as syntax, one lemma per constructor. -/

namespace Sys2Proof

/-- A literal's characters are its sign and digits. -/
theorem literal_not_ws {t : Text} (h : isIntLiteral t = true) : ∀ c ∈ t, isWs c = false := by
  have hd : ∀ c ∈ unsignedPart t, isWs c = false := by
    intro c hc
    simp only [isIntLiteral, Bool.and_eq_true, List.all_eq_true] at h
    exact isWs_of_isDigit (h.2 c hc)
  cases t with
  | nil => simp
  | cons c cs =>
    by_cases hs : c = '+' ∨ c = '-'
    · have hu : unsignedPart (c :: cs) = cs := by simp [unsignedPart, hs]
      rw [hu] at hd
      intro d hdm
      rcases List.mem_cons.mp hdm with rfl | hm
      · rcases hs with rfl | rfl <;> decide
      · exact hd d hm
    · have hu : unsignedPart (c :: cs) = c :: cs := by simp [unsignedPart, hs]
      rwa [hu] at hd

/-- The fields of a well-formed operand. -/
theorem Operand.wf_iff {o : Operand} : o.wf = true ↔
    InIntW o.lit ∧ ∃ literal, o.text = sigilOf o.mode :: literal ∧ isIntLiteral literal = true ∧
      literalValue literal = o.lit := by
  unfold Operand.wf Operand.litInRange Operand.textHasSigil Operand.textIsLiteral Operand.textDenotesLit
  rcases o with ⟨m, v, t⟩
  cases t with
  | nil => simp
  | cons c cs =>
    simp only [Bool.and_eq_true, decide_eq_true_eq, beq_iff_eq, List.head?_cons, Option.some.injEq,
      List.tail_cons, List.cons.injEq]
    constructor
    · rintro ⟨⟨⟨h1, h2⟩, h3⟩, h4⟩; exact ⟨h1, cs, ⟨h2, rfl⟩, h3, h4⟩
    · rintro ⟨h1, l, ⟨h2, rfl⟩, h3, h4⟩; exact ⟨⟨⟨h1, h2⟩, h3⟩, h4⟩

/-- A well-formed operand's token is one run of non-whitespace characters (30_encoding.md R54). -/
theorem Operand.text_token {o : Operand} (h : o.wf = true) : o.text ≠ [] ∧ ∀ c ∈ o.text, isWs c = false := by
  obtain ⟨-, l, ht, hl, -⟩ := Operand.wf_iff.mp h
  refine ⟨by simp [ht], ?_⟩
  rw [ht]
  intro c hc
  rcases List.mem_cons.mp hc with rfl | hm
  · cases o.mode <;> decide
  · exact literal_not_ws hl c hm

/-- The token texts of an instruction (30_encoding.md R52). -/
def Instr.tokenTexts : Instr → List Text
  | .exit => [exitKeyword]
  | .succ target => [succKeyword, target.text]
  | .beqzPred test jump => [beqzPredKeyword, test.text, jump.text]

/-- A token, one space and more text: the token is first. -/
theorem tokens_word_space {w : Text} (rest : Text) (hne : w ≠ []) (h : ∀ c ∈ w, isWs c = false) :
    tokens (w ++ ' ' :: rest) = w :: tokens rest := by
  rw [tokens_run hne h (by rintro d hd; cases hd; decide), tokens_cons_ws rest (by decide)]

theorem tokens_word {w : Text} (hne : w ≠ []) (h : ∀ c ∈ w, isWs c = false) : tokens w = [w] := by
  simpa [tokens] using tokens_run (rest := []) hne h (by simp)

theorem succKeyword_token : ∀ c ∈ succKeyword, isWs c = false := by
  simp [succKeyword, isWs]

theorem beqzPredKeyword_token : ∀ c ∈ beqzPredKeyword, isWs c = false := by
  simp [beqzPredKeyword, isWs]

/-- The tokens of a well-formed instruction's text are its keyword and its operands' tokens (30_encoding.md R52). -/
def Laws.EncodeTokens.Statement (i : Instr) : Prop := i.wf = true → tokens (encode i) = i.tokenTexts

theorem Laws.EncodeTokens.exit : Laws.EncodeTokens.Statement .exit := by
  intro _
  decide

theorem Laws.EncodeTokens.succ (target : Operand) : Laws.EncodeTokens.Statement (.succ target) := by
  intro h
  obtain ⟨hne, hw⟩ := Operand.text_token (o := target) h
  simp only [encode, Instr.tokenTexts]
  rw [tokens_word_space _ (by decide) succKeyword_token, tokens_word hne hw]

theorem Laws.EncodeTokens.beqzPred (test jump : Operand) : Laws.EncodeTokens.Statement (.beqzPred test jump) := by
  intro h
  obtain ⟨ht, hj⟩ := Bool.and_eq_true_iff.mp h
  obtain ⟨htne, htw⟩ := Operand.text_token (o := test) ht
  obtain ⟨hjne, hjw⟩ := Operand.text_token (o := jump) hj
  simp only [encode, Instr.tokenTexts, List.append_assoc, List.cons_append]
  rw [tokens_word_space _ (by decide) beqzPredKeyword_token, tokens_word_space _ htne htw, tokens_word hjne hjw]

end Sys2Proof
end

