-- ==== Sys2Proof/Tests/Slice0.lean ====
section
/-! SUPPORT. Tests from spec/95_test_vectors.md (their ids stand in the comments), the smoke tests of WellFormed, and one
witness for each statement with hypotheses. -/

namespace Sys2Proof.Tests

open Sys2Proof Sys2Proof.Machine

/-- A live core at `pc` whose cells are these texts. -/
def coreAt (pc : Int) (cells : List String) : State := { pc := pc, mem := cells.map String.toList, fault := none }

/-- An operand and its token. -/
def opnd (mode : Mode) (lit : Int) (token : String) : Operand := { mode := mode, lit := lit, text := token.toList }

/-- The outcome is this next state. -/
def leaves (o : Host.Outcome State Fault Refusal) (s : State) : Bool :=
  match o with
  | .next t => decide (t = s)
  | .fault _ => false
  | .refused _ => false

/-- The decoder gives this instruction. -/
def reads (text : String) (i : Instr) : Bool :=
  match decode text.toList with
  | .ok j => decide (j = i)
  | .error _ => false

/-- The decoder refuses the text. -/
def refuses (text : String) : Bool :=
  match decode text.toList with
  | .ok _ => false
  | .error _ => true

/-! WellFormed: an ill-formed term for each check -/

theorem test_wf_refuses_literal_out_of_range :
    (opnd .direct 9223372036854775808 "$9223372036854775808").litInRange = false := by decide
theorem test_wf_refuses_other_sigil : (opnd .direct 5 "&5").textHasSigil = false := by decide
theorem test_wf_refuses_no_literal : (opnd .direct 0 "$x").textIsLiteral = false := by decide
theorem test_wf_refuses_other_literal : (opnd .direct 5 "$6").textDenotesLit = false := by decide
theorem test_wf_refuses_operand : (opnd .direct 5 "$6").wf = false := by decide
theorem test_wf_refuses_succ : (Instr.succ (opnd .indirect 5 "$5")).wf = false := by decide
theorem test_wf_refuses_beqzPred_jump :
    (Instr.beqzPred (opnd .direct 1 "$1") (opnd .direct 2 "$")).wf = false := by decide

/-! Decoding: words written out from 30_encoding.md R52 -/

/-- V-D1, V-D2. -/
theorem test_decode_exit : reads "exit" .exit && reads "  exit " .exit = true := by decide
/-- V-D4 to V-D7. -/
theorem test_decode_succ :
    reads "succ $0" (.succ (opnd .direct 0 "$0")) && reads "succ &1" (.succ (opnd .indirect 1 "&1"))
      && reads "succ\t$-3" (.succ (opnd .direct (-3) "$-3")) && reads "succ $+7" (.succ (opnd .direct 7 "$+7"))
      && reads "succ $007" (.succ (opnd .direct 7 "$007")) = true := by decide
/-- V-D11, V-D11a. -/
theorem test_decode_beqzPred :
    reads "beqz-pred $0 $2" (.beqzPred (opnd .direct 0 "$0") (opnd .direct 2 "$2"))
      && reads "beqz-pred &3 &4" (.beqzPred (opnd .indirect 3 "&3") (opnd .indirect 4 "&4")) = true := by decide
/-- V-D3, V-D8 to V-D10. -/
theorem test_decode_refuses :
    ["exit 0", "EXIT", "Exit", "succ 0", "succ $", "succ $x", "succ $1.0", "succ $ 1", "succ &&1", "succ $&1", "succ",
      "succ $1 $2", "beqz-pred $0", "beqz-pred $0 $1 $2", "beqz_pred $0 $1", "succ $1 # c", ""].all refuses = true := by
  decide
/-- V-D15 to V-D17: the ends of `Int_W`. -/
theorem test_decode_literal_range :
    reads "succ $9223372036854775807" (.succ (opnd .direct Config.intMax "$9223372036854775807"))
      && reads "succ $-9223372036854775808" (.succ (opnd .direct Config.intMin "$-9223372036854775808"))
      && refuses "succ $9223372036854775808" = true := by decide
/-- V-D18, V-D19: U+00A0 is whitespace, U+200B is not. -/
theorem test_decode_unicode_space :
    reads "succ\u00a0$1" (.succ (opnd .direct 1 "$1")) && refuses "succ\u200b$1" = true := by decide
/-- V-D12 to V-D14. -/
theorem test_classify : classify "-0".toList = .data ∧ classify "hello".toList = .invalid ∧
    classify "9223372036854775808".toList = .invalid := by decide
/-- `exit` as the bytes 65 78 69 74, the first the least significant (log 7). -/
theorem test_table_word_exit : decodeTableWord 32 0x74697865 = some .exit := by decide
/-- `succ $0` as the bytes 73 75 63 63 20 24 30 (log 7). -/
theorem test_table_word_succ : decodeTableWord 56 0x30242063637573 = some (.succ (opnd .direct 0 "$0")) := by decide

/-! The integer codec -/

/-- V-N1 to V-N3, V-N6, V-N8. -/
theorem test_parse_accepts :
    parseInt "-0".toList = some 0 ∧ parseInt "007".toList = some 7 ∧ parseInt "+5".toList = some 5 ∧
    parseInt "9223372036854775807".toList = some Config.intMax ∧
    parseInt "-9223372036854775808".toList = some Config.intMin := by decide
/-- V-N4, V-N5, V-N7. -/
theorem test_parse_refuses :
    (["", "+", "-", "1_000", "0x10", "1e3", "--5", "٣", " 5", "5 ", "9223372036854775808", "-9223372036854775809"].all
      fun t => (parseInt t.toList).isNone) = true := by decide
/-- V-N5: the two settings of `PARSE_TRIMS`. -/
theorem test_cellInt_untrimmed : cellInt " 5".toList = if Config.parseTrims then some 5 else none := by rfl
/-- 30_encoding.md R49. -/
theorem test_render : render 0 = "0".toList ∧ render (-6) = "-6".toList ∧
    render Config.intMin = "-9223372036854775808".toList := by decide

/-! One step -/

/-- V-I1: an indirect target. -/
theorem test_succ_indirect :
    leaves (step (coreAt 0 ["succ &1", "2", "0", "0"])) (coreAt 1 ["succ &1", "2", "1", "0"]) = true := by decide
/-- V-S9: overflow is latched, nothing else changes. -/
theorem test_succ_overflow :
    leaves (step (coreAt 0 ["succ $1", "9223372036854775807"]))
      ((coreAt 0 ["succ $1", "9223372036854775807"]).takeFault (.arithmeticOverflow 1 Config.intMax)) = true := by decide
/-- V-B5: a negative counter goes down. -/
theorem test_beqzPred_decrements :
    leaves (step (coreAt 0 ["beqz-pred $1 $2", "-5", "exit"])) (coreAt 1 ["beqz-pred $1 $2", "-6", "exit"]) = true := by
  decide
/-- V-B13: the jump's pointer cell holds no integer. -/
theorem test_beqzPred_malformed_jump :
    leaves (step (coreAt 0 ["beqz-pred $1 &2", "0", "x"]))
      ((coreAt 0 ["beqz-pred $1 &2", "0", "x"]).takeFault (.malformedIndirectTarget 2 "x".toList)) = true := by decide
/-- V-E1. -/
theorem test_exit : stepTransaction (coreAt 0 ["exit"]) = (.halt, coreAt 0 ["exit"]) := by decide
/-- V-H2: the second STEP executes nothing. -/
theorem test_latch : (stepTransaction (stepTransaction (coreAt 0 ["7"])).2).1 = .fault (.executingData 0 "7".toList) := by
  decide
/-- V-H4: a budget that ends. -/
theorem test_run_exhausts : (runTransaction 3 (coreAt 0 ["beqz-pred $1 $0", "0"])).1 = .exhausted := by decide
/-- PROG-7: the image file's blank lines and whitespace. -/
theorem test_loadImage :
    loadImage "  succ $1\r\n\r\n0\r\n   \r\nexit\r\n".toList = ["succ $1".toList, "0".toList, "exit".toList] := by decide
/-- UTF-8: one code point of each length, and an overlong form refused (log 8). -/
theorem test_utf8 : utf8Text [0x24, 0xC2, 0xA0, 0xE2, 0x80, 0x8B, 0xF0, 0x9F, 0x98, 0x80] =
    some ['$', '\u00a0', '\u200b', Char.ofNat 0x1F600] ∧ utf8Text [0xC0, 0x80] = none := by decide
/-- A word placed in the reset state runs as the first instruction (log 3, log 7). -/
theorem test_placed_exit :
    leaves (step (State.reset.withFetchWord 32 0x74697865)) (coreAt 0 ["exit"]) = true := by decide

/-! Witnesses: states and operands that meet each statement's hypotheses, one line for each clause -/

theorem witness_TokensAreTheMaximalRuns :
    (∀ c ∈ " \t".toList, isWs c = true) ∧ (" ".toList ≠ [] ∧ "ab".toList ≠ []) ∧ (∀ c ∈ "ab".toList, isWs c = false) ∧
    (∀ c, " cd".toList.head? = some c → isWs c = true) := by
  refine ⟨by simp [isWs], by decide, by simp [isWs], ?_⟩
  intro c hc
  cases hc
  decide
theorem witness_ParseIntReadsSignedDecimals :
    ("9223372036854775808".toList ≠ [] ∧ ∀ c ∈ "9223372036854775808".toList, '0' ≤ c ∧ c ≤ '9') ∧
    (∀ ds : Text, ds ≠ [] → (∀ c ∈ ds, '0' ≤ c ∧ c ≤ '9') → ([] : Text) ≠ ds ∧ [] ≠ '+' :: ds ∧ [] ≠ '-' :: ds) :=
  ⟨by simp, fun _ hne _ => ⟨fun h => hne h.symm, by simp, by simp⟩⟩
theorem witness_CellReadsFollowParseTrims :
    cellInt "-5".toList = some (-5) ∧ cellInt "x".toList = none ∧ trim "5".toList = "5".toList := by decide
theorem witness_RenderIsCanonicalDecimal :
    InIntW Config.intMin ∧ InIntW (-1) ∧ InIntW 0 ∧ InIntW Config.intMax := by decide
theorem witness_DecodeReadsBackEveryEncoding :
    Instr.exit.wf = true ∧ (Instr.succ (opnd .indirect Config.intMin "&-9223372036854775808")).wf = true ∧
    (Instr.beqzPred (opnd .direct 7 "$+07") (opnd .indirect 0 "&0")).wf = true := by decide
theorem witness_RenderedCountersReadBack : InIntW Config.intMin ∧ InIntW Config.intMax := by decide
theorem witness_EveryLiteralHasAnOperand : InIntW Config.intMin ∧ InIntW Config.intMax := by decide
theorem witness_DecodeAcceptsOnlyEncodings : decode "exit".toList = .ok .exit := by decide
theorem witness_AnyWhitespaceSpellsTheSame :
    (∀ c ∈ "".toList ++ "\t".toList ++ " \n".toList ++ "\r".toList, isWs c = true) ∧ "\t".toList ≠ [] ∧
    " \n".toList ≠ [] ∧ (opnd .direct 1 "$1").wf = true ∧ (opnd .indirect 2 "&2").wf = true :=
  ⟨by simp [isWs], by decide, by decide, by decide, by decide⟩
theorem witness_IntegerTextsNeverDecode :
    (parseInt "-0".toList).isSome = true ∧ (parseInt (trim " 5".toList)).isSome = true ∧
    (cellInt "7".toList).isSome = true ∧ decode "exit".toList = .ok .exit := by decide
/-- The boundary addresses of a core of two cells: -1 and 2 outside, 0 and 1 inside. -/
theorem witness_CheckAdmitsExactlyTheCells :
    (2 : Int) ≥ (coreAt 0 ["0", "0"]).mem.length ∧ (1 : Int) < (coreAt 0 ["0", "0"]).mem.length := by decide
theorem witness_ResolveSelectsDirectOrIndirect :
    (opnd .direct 9 "$9").mode = .direct ∧ (opnd .indirect 2 "&2").mode = .indirect ∧
    ¬ (coreAt 0 ["x", "9"]).hasCell 2 ∧ ¬ (coreAt 0 ["x", "9"]).hasCell (-1) ∧
    (coreAt 0 ["x", "9"]).cell 0 = some "x".toList ∧ cellInt "x".toList = none ∧
    (coreAt 0 ["x", "9"]).cell 1 = some "9".toList ∧ cellInt "9".toList = some 9 := by decide
theorem witness_SuccIncrementsTheCounter :
    (let s := coreAt 0 ["9223372036854775806", "1"]
     resolve s (opnd .direct 0 "$0") = .ok 0 ∧ s.cell 0 = some "9223372036854775806".toList ∧
     lenient "9223372036854775806".toList ≠ Config.intMax ∧
     resolve s (opnd .indirect 1 "&1") = .ok 1 ∧ s.cell 1 = some "1".toList) ∧
    (let s := coreAt 0 ["9223372036854775807"]
     resolve s (opnd .direct 0 "$0") = .ok 0 ∧ s.cell 0 = some "9223372036854775807".toList ∧
     lenient "9223372036854775807".toList = Config.intMax) := by decide
theorem witness_SuccFaultsInCheckOrder :
    let s := coreAt 0 ["x", "2"]
    ¬ s.hasCell 2 ∧ (s.cell 0 = some "x".toList ∧ cellInt "x".toList = none) ∧
    (resolve s (opnd .indirect 1 "&1") = .ok 2 ∧ ¬ s.hasCell 2) ∧
    (resolve s (opnd .direct (-1) "$-1") = .ok (-1) ∧ ¬ s.hasCell (-1)) := by decide
/-- A step that commits and a step that faults. -/
theorem witness_SuccFrame :
    leaves (exec (.succ (opnd .direct 1 "$1")) (coreAt 0 ["succ $1", "0"])) (coreAt 1 ["succ $1", "1"]) = true ∧
    leaves (exec (.succ (opnd .direct 2 "$2")) (coreAt 0 ["succ $2", "0"]))
      ((coreAt 0 ["succ $2", "0"]).takeFault (.outOfBounds 2 2)) = true := by decide
theorem witness_BeqzPredBranchesOnZero :
    let s := coreAt 0 ["beqz-pred $1 &2", "x", "0"]
    resolve s (opnd .direct 1 "$1") = .ok 1 ∧ s.cell 1 = some "x".toList ∧ lenient "x".toList = 0 ∧
    resolve s (opnd .indirect 2 "&2") = .ok 0 ∧ s.hasCell 0 ∧
    resolve s (opnd .direct 2 "$2") = .ok 2 ∧ s.hasCell 2 := by decide
theorem witness_BeqzPredDecrementsNonZero :
    let s := coreAt 0 ["-9223372036854775807", "-9223372036854775808", "0"]
    resolve s (opnd .direct 0 "$0") = .ok 0 ∧
    (s.cell 0 = some "-9223372036854775807".toList ∧ lenient "-9223372036854775807".toList ≠ 0 ∧
      lenient "-9223372036854775807".toList ≠ Config.intMin) ∧
    (s.cell 1 = some "-9223372036854775808".toList ∧ lenient "-9223372036854775808".toList = Config.intMin) ∧
    (s.cell 2 = some "0".toList ∧ lenient "0".toList = 0) := by decide
theorem witness_BeqzPredFaultsInCheckOrder :
    let s := coreAt 0 ["x", "3", "0"]
    ¬ s.hasCell 3 ∧ (s.cell 0 = some "x".toList ∧ cellInt "x".toList = none) ∧
    (resolve s (opnd .indirect 1 "&1") = .ok 3 ∧ ¬ s.hasCell 3) ∧
    (resolve s (opnd .direct 2 "$2") = .ok 2 ∧ s.cell 2 = some "0".toList ∧ lenient "0".toList = 0) := by decide
/-- The zero path, the decrement and a fault. -/
theorem witness_BeqzPredFrame :
    (let s := coreAt 0 ["beqz-pred $1 $0", "0"]
     leaves (exec (.beqzPred (opnd .direct 1 "$1") (opnd .direct 0 "$0")) s) s = true ∧
     resolve s (opnd .direct 1 "$1") = .ok 1 ∧ s.cell 1 = some "0".toList ∧ lenient "0".toList = 0) ∧
    leaves (exec (.beqzPred (opnd .direct 1 "$1") (opnd .direct 9 "$9")) (coreAt 0 ["beqz-pred $1 $9", "3"]))
      (coreAt 1 ["beqz-pred $1 $9", "2"]) = true ∧
    leaves (exec (.beqzPred (opnd .direct 1 "$1") (opnd .direct 2 "$2")) (coreAt 0 ["beqz-pred $1 $2", "0"]))
      ((coreAt 0 ["beqz-pred $1 $2", "0"]).takeFault (.outOfBounds 2 2)) = true := by decide
theorem witness_NonZeroTestIgnoresJumpOperand :
    let s := coreAt 0 ["beqz-pred $1 &5", "7"]
    resolve s (opnd .direct 1 "$1") = .ok 1 ∧ s.cell 1 = some "7".toList ∧ lenient "7".toList ≠ 0 := by decide
theorem witness_ExitHaltsAndChangesNothing :
    let s := coreAt 0 ["  exit  "]
    s.fault = none ∧ s.cell s.pc = some "  exit  ".toList ∧ decode (trim "  exit  ".toList) = .ok .exit := by decide
theorem witness_StepRunsTheDecodedInstruction :
    let s := coreAt 0 ["succ $0"]
    s.fault = none ∧ s.cell s.pc = some "succ $0".toList ∧
    decode (trim "succ $0".toList) = .ok (.succ (opnd .direct 0 "$0")) ∧
    (Instr.succ (opnd .direct 0 "$0")).wf = true := by decide
/-- `pc = -1` and `pc = N` outside, and a cell that is an instruction. -/
theorem witness_FetchChecksPc :
    ((coreAt (-1) ["exit"]).fault = none ∧ (coreAt (-1) ["exit"]).pc < 0) ∧
    ((coreAt 1 ["exit"]).fault = none ∧ ((coreAt 1 ["exit"]).memSize : Int) ≤ (coreAt 1 ["exit"]).pc) ∧
    ((coreAt 0 ["exit"]).cell 0 = some "exit".toList ∧ classify "exit".toList = .code .exit) := by decide
/-- Data up to `INT_MAX`, invalid from the next integer on and for the empty text, and an instruction. -/
theorem witness_DecodeStageFaults :
    (coreAt 0 ["5"]).fault = none ∧ (coreAt 0 ["5"]).cell 0 = some "5".toList ∧ classify "5".toList = .data ∧
    (coreAt 0 [""]).cell 0 = some "".toList ∧ classify "".toList = .invalid ∧
    (coreAt 0 ["exit"]).cell 0 = some "exit".toList ∧ classify "exit".toList = .code .exit ∧
    decode (trim "exit".toList) = .ok .exit ∧
    (decode (trim "9223372036854775807".toList) = .error .notAnInstruction ∧
      cellInt "9223372036854775807".toList = some Config.intMax) ∧
    (decode (trim "9223372036854775808".toList) = .error .notAnInstruction ∧
      cellInt "9223372036854775808".toList = none) := by decide
/-- The least value outside `Int_W` on each side: `m` is 2^63 unsigned or after `+`, and 2^63 + 1 after `-`. -/
theorem witness_OutOfRangeDigitsAreInvalid :
    ((coreAt 0 ["9223372036854775808"]).fault = none ∧
      (coreAt 0 ["9223372036854775808"]).cell 0 = some "9223372036854775808".toList ∧
      (coreAt 0 ["+9223372036854775808"]).cell 0 = some ('+' :: "9223372036854775808".toList) ∧
      "9223372036854775808".toList.foldl (fun (acc : Int) d => 10 * acc + ((d.toNat : Int) - 48)) 0
        = Config.intMax + 1 ∧ ¬ InIntW (Config.intMax + 1)) ∧
    ((coreAt 0 ["-9223372036854775809"]).cell 0 = some ('-' :: "9223372036854775809".toList) ∧
      -("9223372036854775809".toList.foldl (fun (acc : Int) d => 10 * acc + ((d.toNat : Int) - 48)) 0)
        = Config.intMin - 1 ∧ ¬ InIntW (Config.intMin - 1)) ∧
    (∀ d ∈ "9223372036854775808".toList, '0' ≤ d ∧ d ≤ '9') ∧
    (∀ d ∈ "9223372036854775809".toList, '0' ≤ d ∧ d ≤ '9') :=
  ⟨by decide, by decide, by simp, by simp⟩
/-- A live core, for StepResultsAreTheInstructions, and a faulted one, for StepAgreesWithStepTransaction,
FaultLatchIsSticky and FaultCodesAreTheListed. -/
theorem witness_LiveAndFaultedCores :
    (coreAt 0 ["exit"]).fault = none ∧ ((coreAt 0 ["7"]).takeFault (.executingData 0 "7".toList)).fault =
      some (.executingData 0 "7".toList) := by decide
/-- A committed step to `pc = N`. -/
theorem witness_CommittedPcStaysAtMemory :
    leaves (step (coreAt 0 ["succ $0"])) (coreAt 1 ["1"]) = true ∧ (coreAt 1 ["1"]).fault = none := by decide
theorem witness_OnlyConstructChangesMemorySize :
    leaves (exec .exit (coreAt 0 ["exit"])) (coreAt 0 ["exit"]) = true ∧
    ∀ pc0 image, Transaction.run 2 ≠ .construct pc0 image :=
  ⟨by decide, fun _ _ h => by cases h⟩
theorem witness_WrittenCellsAreCanonicalCounters :
    leaves (step (coreAt 0 ["succ $0"])) (coreAt 1 ["1"]) = true ∧ (coreAt 1 ["1"]).cell 0 ≠ (coreAt 0 ["succ $0"]).cell 0 := by
  decide
theorem witness_WrittenCellFaultsAsData :
    InIntW Config.intMin ∧ (coreAt 0 ["-9223372036854775808"]).fault = none ∧
    (coreAt 0 ["-9223372036854775808"]).cell 0 = some (render Config.intMin) := by decide
/-- PROG-4's first step. -/
theorem witness_FetchSeesTheLatestWrite :
    let s := coreAt 0 ["succ $1", "exit"]
    s.fault = none ∧ s.cell s.pc = some "succ $1".toList ∧
    decode (trim "succ $1".toList) = .ok (.succ (opnd .direct 1 "$1")) ∧
    resolve s (opnd .direct 1 "$1") = .ok (s.pc + 1) ∧ s.cell (s.pc + 1) = some "exit".toList ∧
    lenient "exit".toList ≠ Config.intMax ∧ leaves (step s) (coreAt 1 ["succ $1", "1"]) = true := by decide
theorem witness_FaultEntryIsPrecise :
    (coreAt 1 ["exit"]).fault = none ∧
    stepTransaction (coreAt 1 ["exit"]) = (.fault (.outOfBounds 1 1), (coreAt 1 ["exit"]).takeFault (.outOfBounds 1 1)) := by
  decide
theorem witness_LatchedRecordsTellTheTruth :
    leaves (step (coreAt 0 ["5"])) ((coreAt 0 ["5"]).takeFault (.executingData 0 "5".toList)) = true := by decide
/-- A run that exhausts and one that halts. -/
theorem witness_RunsCompose :
    (runTransaction 1 (coreAt 0 ["succ $0"])).1 = .exhausted ∧ (runTransaction 1 (coreAt 0 ["exit"])).1 ≠ .exhausted := by
  decide
/-- A run that halts, one that faults, one that exhausts. -/
theorem witness_RunEndsAsItsResultSays :
    (runTransaction 2 (coreAt 0 ["exit"])).1 = .halted ∧
    (runTransaction 2 (coreAt 0 ["succ $0"])).1 = .faulted (.outOfBounds 1 1) ∧
    (runTransaction 2 (coreAt 0 ["beqz-pred $0 $0"])).1 = .exhausted := by decide
theorem witness_PlacedWordIsTheNextInstruction : decodeTableWord 32 0x74697865 = some .exit := by decide
/-- A sound state with a next state. -/
theorem witness_StepKeepsSoundStates :
    (coreAt 0 ["succ $0"]).sound ∧ leaves (step (coreAt 0 ["succ $0"])) (coreAt 1 ["1"]) = true :=
  ⟨⟨by decide, fun _ h => by cases h⟩, by decide⟩
/-- A sound state, a RUN, and a CONSTRUCT with the greatest `pc0`. -/
theorem witness_TransactionsKeepSoundStates :
    (coreAt 0 ["exit"]).sound ∧ InIntW Config.intMax ∧ (["exit".toList].length : Int) ≤ Config.intMax :=
  ⟨⟨by decide, fun _ h => by cases h⟩, by decide, by decide⟩
theorem witness_LaunchPremiseHoldsAndIsKept :
    (coreAt 0 ["succ $0"]).allCellsTrimmed ∧ leaves (step (coreAt 0 ["succ $0"])) (coreAt 1 ["1"]) = true := by decide
theorem witness_LoadImageKeepsNonBlankLines : ∀ l ∈ ["exit ".toList, "".toList], '\n' ∉ l := by decide

end Sys2Proof.Tests
end

/-! Every transaction keeps the invariant `State.sound`: a fault that is raised describes the state it is raised
in, a commit keeps `pc` in `Int_W`, and a RUN is its steps one after another. -/

namespace Sys2Proof.Machine

/-! ### What a raised fault records (60_exceptions.md R85) -/

/-- Fault entry changes nothing a record speaks of. -/
@[simp] theorem describes_takeFault (f g : Fault) (s : State) : f.describes (s.takeFault g) ↔ f.describes s := by
  cases f <;> rfl

/-- A state's latch is honest after the entry of a fault that describes the state. -/
theorem takeFault_faultHonest {s : State} {f : Fault} (h : f.describes s) : (s.takeFault f).faultHonest := by
  intro g hg
  cases hg
  simpa using h

theorem faultHonest_of_live {s : State} (h : s.fault = none) : s.faultHonest := by
  intro f hf
  rw [h] at hf
  cases hf

theorem resolve_error_describes {s : State} {op : Operand} {f : Fault} (h : resolve s op = .error f) :
    f.describes s := by
  obtain ⟨-, ⟨hn, rfl⟩ | ⟨t, ht, hv, rfl⟩⟩ := resolve_error h
  · exact ⟨rfl, hn⟩
  · exact ⟨ht, hv⟩

theorem operandFault_describes {s : State} {op : Operand} {f : Fault} (h : operandFault s op f) : f.describes s := by
  obtain hr | ⟨a, -, hn, rfl⟩ := h
  · exact resolve_error_describes hr
  · exact ⟨rfl, hn⟩

theorem dispatch_error_describes {i : Instr} {s : State} {f : Fault} (h : dispatch i s = .error f) :
    f.describes s := by
  cases i with
  | exit => cases h
  | succ target =>
    obtain ho | ⟨a, t, -, ht, hv, rfl⟩ := succBody_error h
    · exact operandFault_describes ho
    · exact ⟨⟨t, ht, hv⟩, .inl rfl⟩
  | beqzPred test jump =>
    obtain ho | ⟨ta, t, -, ht, ⟨-, ho⟩ | ⟨hv, rfl⟩⟩ := beqzPredBody_error h
    · exact operandFault_describes ho
    · exact operandFault_describes ho
    · exact ⟨⟨t, ht, hv⟩, .inr rfl⟩

/-- A text of class data is no instruction and an integer (30_encoding.md R60). -/
theorem classify_eq_data {c : Text} (h : classify c = .data) :
    decode (trim c) = .error .notAnInstruction ∧ (cellInt c).isSome = true := by
  obtain ⟨i, -, hc⟩ | ⟨hd, hv, -⟩ | ⟨-, -, hc⟩ := classify_cases c
  · rw [h] at hc; cases hc
  · exact ⟨hd, hv⟩
  · rw [h] at hc; cases hc

/-- A text of class invalid is neither an instruction nor an integer (30_encoding.md R60). -/
theorem classify_eq_invalid {c : Text} (h : classify c = .invalid) :
    decode (trim c) = .error .notAnInstruction ∧ cellInt c = none := by
  obtain ⟨i, -, hc⟩ | ⟨-, -, hc⟩ | ⟨hd, hv, -⟩ := classify_cases c
  · rw [h] at hc; cases hc
  · rw [h] at hc; cases hc
  · exact ⟨hd, hv⟩

theorem fetchDecode_error_describes {s : State} {f : Fault} (h : fetchDecode s = .error f) : f.describes s := by
  obtain ⟨hn, rfl⟩ | ⟨c, hc, ⟨hk, rfl⟩ | ⟨hk, rfl⟩⟩ := fetchDecode_error h
  · exact ⟨rfl, hn⟩
  · exact ⟨rfl, hc, classify_eq_data hk⟩
  · exact ⟨rfl, hc, classify_eq_invalid hk⟩

/-! ### What a transaction's step can do (40_dispatch.md R65) -/

/-- The answer of STEP that a committed step's signal becomes. -/
def Signal.answer : Signal → StepResult
  | .cont => .cont
  | .halt => .halt

/-- The body of a step is the dispatch of the fetched instruction, or the fetch's fault. -/
theorem stepBody_cases (s : State) :
    (∃ i, fetchDecode s = .ok i ∧ stepBody s = dispatch i s) ∨
    (∃ f, fetchDecode s = .error f ∧ stepBody s = .error f) := by
  unfold stepBody
  cases fetchDecode s with
  | error f => exact .inr ⟨f, rfl, rfl⟩
  | ok i => exact .inl ⟨i, rfl, rfl⟩

/-- A step that commits has fetched an instruction and committed its arm. -/
theorem stepBody_ok {s s' : State} {g : Signal} (h : stepBody s = .ok (g, s')) :
    ∃ i, fetchDecode s = .ok i ∧ dispatch i s = .ok (g, s') := by
  obtain ⟨i, hi, hb⟩ | ⟨f, -, hb⟩ := stepBody_cases s
  · exact ⟨i, hi, hb.symm.trans h⟩
  · rw [hb] at h; cases h

theorem stepBody_error_describes {s : State} {f : Fault} (h : stepBody s = .error f) : f.describes s := by
  obtain ⟨i, -, hb⟩ | ⟨g, hg, hb⟩ := stepBody_cases s
  · exact dispatch_error_describes (hb.symm.trans h)
  · rw [hb] at h; cases h; exact fetchDecode_error_describes hg

/-- All that STEP can do: answer a latched fault, commit, or enter a fault. -/
theorem stepTransaction_cases (s : State) :
    (∃ f, s.fault = some f ∧ stepTransaction s = (.fault f, s)) ∨
    (s.fault = none ∧ ∃ g s', stepBody s = .ok (g, s') ∧ stepTransaction s = (g.answer, s')) ∨
    (s.fault = none ∧ ∃ f, stepBody s = .error f ∧ stepTransaction s = (.fault f, s.takeFault f)) := by
  unfold stepTransaction
  cases s.fault with
  | some f => exact .inl ⟨f, rfl, rfl⟩
  | none =>
    rcases stepBody s with f | ⟨g, s'⟩
    · exact .inr (.inr ⟨rfl, f, rfl, rfl⟩)
    · cases g with
      | cont => exact .inr (.inl ⟨rfl, .cont, s', rfl, rfl⟩)
      | halt => exact .inr (.inl ⟨rfl, .halt, s', rfl, rfl⟩)

/-- Every instruction that commits does so by `commit`, and its `pc` is held, incremented or loaded with a cell's
address. -/
theorem dispatch_ok {i : Instr} {s s' : State} {g : Signal} (h : dispatch i s = .ok (g, s')) :
    ∃ w sel, s' = commit s w sel ∧ (sel = .hold ∨ sel = .inc ∨ ∃ a, sel = .load a ∧ s.hasCell a) := by
  cases i with
  | exit => cases h; exact ⟨none, .hold, rfl, .inl rfl⟩
  | succ target =>
    obtain ⟨-, a, t, -, -, -, rfl⟩ := succBody_ok h
    exact ⟨_, .inc, rfl, .inr (.inl rfl)⟩
  | beqzPred test jump =>
    obtain ⟨-, ta, t, -, -, ⟨-, ja, -, hja, rfl⟩ | ⟨-, -, rfl⟩⟩ := beqzPredBody_ok h
    · exact ⟨none, .load ja, rfl, .inr (.inr ⟨ja, rfl, hja⟩)⟩
    · exact ⟨_, .inc, rfl, .inr (.inl rfl)⟩

/-! ### Steps keep the invariant -/

/-- A cell's address, and the address after it, are in `Int_W`: `N` is at most `INT_MAX` (00_scope.md R6, D14). -/
theorem inIntW_of_hasCell {s : State} {a : Int} (hN : s.mem.wf) (ha : s.hasCell a) :
    InIntW a ∧ InIntW (a + 1) := by
  obtain ⟨h0, h1⟩ := ha
  have hmin : Config.intMin ≤ 0 := by decide
  unfold Memory.wf at hN
  unfold State.memSize at h1
  exact ⟨⟨by omega, by omega⟩, ⟨by omega, by omega⟩⟩

theorem takeFault_sound {s : State} {f : Fault} (hwf : s.wf) (hf : f.describes s) : (s.takeFault f).sound :=
  ⟨hwf, takeFault_faultHonest hf⟩

theorem commit_sound {s : State} {sel : PcSelect} (w : Option (Int × Text)) (hN : s.mem.wf)
    (hlive : s.fault = none) (hpc : InIntW (nextPc s.pc sel)) : (commit s w sel).sound :=
  ⟨⟨hpc, commit_memory_wf w sel hN⟩, faultHonest_of_live hlive⟩

/-- An instruction fetched from a cell leaves a sound state where it commits (40_dispatch.md R69). -/
theorem dispatch_ok_sound {i : Instr} {s s' : State} {g : Signal} (hwf : s.wf) (hlive : s.fault = none)
    (hcell : s.hasCell s.pc) (h : dispatch i s = .ok (g, s')) : s'.sound := by
  obtain ⟨hpc, hN⟩ := hwf
  obtain ⟨w, sel, rfl, hsel⟩ := dispatch_ok h
  apply commit_sound w hN hlive
  obtain rfl | rfl | ⟨a, rfl, ha⟩ := hsel
  · exact hpc
  · exact (inIntW_of_hasCell hN hcell).2
  · exact (inIntW_of_hasCell hN ha).1

theorem stepTransaction_sound {s : State} (hs : s.sound) : (stepTransaction s).2.sound := by
  obtain ⟨f, -, ht⟩ | ⟨hlive, g, s', hb, ht⟩ | ⟨-, f, hb, ht⟩ := stepTransaction_cases s
  · rw [ht]
    exact hs
  · obtain ⟨i, hi, hd⟩ := stepBody_ok hb
    obtain ⟨c, hc, -⟩ := fetchDecode_ok hi
    rw [ht]
    exact dispatch_ok_sound hs.1 hlive (hasCell_of_cell hc) hd
  · rw [ht]
    exact takeFault_sound hs.1 (stepBody_error_describes hb)

/-! ### Runs keep what steps keep (40_dispatch.md R72) -/

/-- The loop of RUN keeps every property that STEP keeps, whatever its budget. -/
theorem runLoop_invariant {P : State → Prop} (hstep : ∀ s, P s → P (stepTransaction s).2) (n : Nat) {s : State}
    (hs : P s) : P (runLoop n s).2 := by
  induction n generalizing s with
  | zero => exact hs
  | succ n ih =>
    have hnext : P (stepTransaction s).2 := hstep s hs
    unfold runLoop
    split
    · next s' ht => rw [ht] at hnext; exact ih hnext
    · next s' ht => rw [ht] at hnext; exact hnext
    · next f s' ht => rw [ht] at hnext; exact hnext

/-- RUN keeps every property that STEP keeps. -/
theorem runTransaction_invariant {P : State → Prop} (hstep : ∀ s, P s → P (stepTransaction s).2) (n : Nat)
    {s : State} (hs : P s) : P (runTransaction n s).2 := by
  unfold runTransaction
  split
  · exact hs
  · exact runLoop_invariant hstep n hs

theorem construct_sound {pc0 : Int} {image : List Text} (hpc : InIntW pc0)
    (hN : (image.length : Int) ≤ Config.intMax) : (construct pc0 image).sound :=
  ⟨⟨hpc, construct_memory_wf hN⟩, faultHonest_of_live rfl⟩

/-- Settles O49: by cases on the transaction; a RUN by induction on its budget (`runTransaction_invariant`). -/
theorem transactionsKeepSoundStates : Obligations.TransactionsKeepSoundStates := by
  intro t s hs hargs
  cases t with
  | construct pc0 image =>
    obtain ⟨hpc, hN⟩ := hargs pc0 image rfl
    exact construct_sound hpc hN
  | step => exact stepTransaction_sound hs
  | run n => exact runTransaction_invariant (fun _ => stepTransaction_sound) n hs
  | queryPc => exact hs
  | queryMem => exact hs
  | queryFault => exact hs

end Sys2Proof.Machine

/-! The architectural state over a step and over a transaction: what commits and fault entries change and leave
unchanged, and what the queries read. -/

namespace Sys2Proof.Machine

/-! ### All that a step can do -/

/-- A step of a live core enters a fault that describes the state, or it commits an instruction fetched from the cell at
`pc` (40_dispatch.md R65, 60_exceptions.md R85). -/
theorem step_cases {s s' : State} (h : step s = .next s') :
    s.fault = none ∧
    ((∃ f, f.describes s ∧ s' = s.takeFault f) ∨
     (s.hasCell s.pc ∧ ∃ i g, dispatch i s = .ok (g, s'))) := by
  obtain ⟨hlive, ⟨f, hf, rfl⟩ | ⟨i, hi, hx⟩⟩ := step_next h
  · exact ⟨hlive, .inl ⟨f, fetchDecode_error_describes hf, rfl⟩⟩
  · refine ⟨hlive, ?_⟩
    obtain ⟨c, hc, -⟩ := fetchDecode_ok hi
    obtain ⟨g, hd⟩ | ⟨f, hd, rfl⟩ := exec_next hx
    · exact .inr ⟨hasCell_of_cell hc, i, g, hd⟩
    · exact .inl ⟨f, dispatch_error_describes hd, rfl⟩

/-- Settles O48: a fault entry leaves an honest latch (`takeFault_sound`), a commit leaves `pc` in `Int_W`
(`dispatch_ok_sound`). -/
theorem stepKeepsSoundStates : Obligations.StepKeepsSoundStates := by
  intro s s' hs h
  obtain ⟨hlive, ⟨f, hf, rfl⟩ | ⟨hcell, i, g, hd⟩⟩ := step_cases h
  · exact takeFault_sound hs.1 hf
  · exact dispatch_ok_sound hs.1 hlive hcell hd

/-! ### What every instruction leaves unchanged -/

/-- No instruction that commits changes `N` or the latch. -/
theorem dispatch_ok_frame {i : Instr} {s s' : State} {g : Signal} (h : dispatch i s = .ok (g, s')) :
    s'.memSize = s.memSize ∧ s'.fault = s.fault := by
  obtain ⟨w, sel, rfl, -⟩ := dispatch_ok h
  exact ⟨commit_memSize s w sel, commit_fault s w sel⟩

/-- No instruction changes `N`, whether it commits or faults (10_state.md R18). -/
theorem exec_memSize {i : Instr} {s s' : State} (h : exec i s = .next s') : s'.memSize = s.memSize := by
  obtain ⟨g, hd⟩ | ⟨f, -, rfl⟩ := exec_next h
  · exact (dispatch_ok_frame hd).1
  · exact takeFault_memSize s f

/-- An instruction keeps the latch, or it enters a fault and changes nothing else (60_exceptions.md R88). -/
theorem exec_fault {i : Instr} {s s' : State} (h : exec i s = .next s') :
    s'.fault = s.fault ∨ ∃ f, s' = s.takeFault f := by
  obtain ⟨g, hd⟩ | ⟨f, -, rfl⟩ := exec_next h
  · exact .inl (dispatch_ok_frame hd).2
  · exact .inr ⟨f, rfl⟩

/-! ### The cells `succ` and `beqz-pred` leave unchanged (20_memory.md R33) -/

theorem exec_succ_cell_other {s s' : State} {target : Operand} {b : Int} (h : exec (.succ target) s = .next s')
    (hb : ∀ a, resolve s target = .ok a → b ≠ a) : s'.cell b = s.cell b := by
  obtain ⟨g, hd⟩ | ⟨f, -, rfl⟩ := exec_next h
  · obtain ⟨-, a, t, ha, -, -, rfl⟩ := succBody_ok hd
    exact commit_cell_other (hb a ha)
  · exact takeFault_cell s f b

theorem exec_beqzPred_cell_other {s s' : State} {test jump : Operand} {b : Int}
    (h : exec (.beqzPred test jump) s = .next s') (hb : ∀ ta, resolve s test = .ok ta → b ≠ ta) :
    s'.cell b = s.cell b := by
  obtain ⟨g, hd⟩ | ⟨f, -, rfl⟩ := exec_next h
  · obtain ⟨-, ta, t, hta, -, ⟨-, ja, -, -, rfl⟩ | ⟨-, -, rfl⟩⟩ := beqzPredBody_ok hd
    · exact commit_none_cell s (.load ja) b
    · exact commit_cell_other (hb ta hta)
  · exact takeFault_cell s f b

/-- The zero path of `beqz-pred` writes no cell (42_beqz_pred.md R78). -/
theorem exec_beqzPred_mem_of_zero {s s' : State} {test jump : Operand} {ta : Int} {t : Text}
    (h : exec (.beqzPred test jump) s = .next s') (hta : resolve s test = .ok ta) (ht : s.cell ta = some t)
    (hz : lenient t = 0) : s'.mem = s.mem := by
  obtain ⟨g, hd⟩ | ⟨f, -, rfl⟩ := exec_next h
  · obtain ⟨-, ta', t', hta', ht', hpath⟩ := beqzPredBody_ok hd
    obtain rfl : ta = ta' := Except.ok.inj (hta.symm.trans hta')
    obtain rfl : t = t' := Option.some.inj (ht.symm.trans ht')
    obtain ⟨-, ja, -, -, rfl⟩ | ⟨hnz, -, -⟩ := hpath
    · exact commit_mem_none s (.load ja)
    · exact absurd hz hnz
  · exact takeFault_mem s f

/-- Settles O20: the cells by the commit of `succ`, `N` and the latch by what every instruction keeps. -/
theorem succFrame : Obligations.SuccFrame := fun _ _ _ h =>
  ⟨fun _ hb => exec_succ_cell_other h hb, exec_memSize h, exec_fault h⟩

/-- Settles O24: the cells by the two commits of `beqz-pred`, `N` and the latch by what every instruction keeps. -/
theorem beqzPredFrame : Obligations.BeqzPredFrame := fun _ _ _ _ h =>
  ⟨fun _ hb => exec_beqzPred_cell_other h hb,
    fun _ _ hta ht hz => exec_beqzPred_mem_of_zero h hta ht hz, exec_memSize h, exec_fault h⟩

/-! ### Where a committed step leaves `pc` -/

/-- From a cell's address every select of PCC stays in `[0, N]` (40_dispatch.md R69). -/
theorem nextPc_bounds {s : State} {sel : PcSelect} (hcell : s.hasCell s.pc)
    (hsel : sel = .hold ∨ sel = .inc ∨ ∃ a, sel = .load a ∧ s.hasCell a) :
    0 ≤ nextPc s.pc sel ∧ nextPc s.pc sel ≤ s.memSize := by
  obtain ⟨hpc0, hpcN⟩ := hcell
  obtain rfl | rfl | ⟨a, rfl, ha0, haN⟩ := hsel
  · exact ⟨hpc0, hpcN.le⟩
  · exact ⟨by simp only [nextPc_inc]; omega, hpcN⟩
  · exact ⟨ha0, haN.le⟩

/-- Settles O33: a step that leaves no fault has committed, and its select stays in `[0, N]` (`nextPc_bounds`). -/
theorem committedPcStaysAtMemory : Obligations.CommittedPcStaysAtMemory := by
  intro s s' h hlive'
  obtain ⟨-, ⟨f, -, rfl⟩ | ⟨hcell, i, g, hd⟩⟩ := step_cases h
  · cases hlive'
  · obtain ⟨w, sel, rfl, hsel⟩ := dispatch_ok hd
    rw [commit_memSize, commit_pc]
    exact ⟨hcell, nextPc_bounds hcell hsel⟩

/-! ### The memory size over transactions (10_state.md R18) -/

/-- STEP leaves `N`. -/
theorem stepTransaction_memSize (s : State) : (stepTransaction s).2.memSize = s.memSize := by
  obtain ⟨f, -, ht⟩ | ⟨-, g, s', hb, ht⟩ | ⟨-, f, -, ht⟩ := stepTransaction_cases s
  · rw [ht]
  · obtain ⟨i, -, hd⟩ := stepBody_ok hb
    rw [ht]
    exact (dispatch_ok_frame hd).1
  · rw [ht]
    exact takeFault_memSize s f

/-- RUN leaves `N`, whatever its budget. -/
theorem runTransaction_memSize (n : Nat) (s : State) : (runTransaction n s).2.memSize = s.memSize :=
  runTransaction_invariant (P := fun t => t.memSize = s.memSize)
    (fun t ht => (stepTransaction_memSize t).trans ht) n rfl

/-- Cell `k` is the `k`-th text of the memory. -/
@[simp] theorem cell_natCast (s : State) (k : Nat) : s.cell k = s.mem[k]? := by
  simp [State.cell]

/-- Settles O34: by cases on the transaction; a RUN by `runTransaction_memSize`. -/
theorem onlyConstructChangesMemorySize : Obligations.OnlyConstructChangesMemorySize := by
  refine ⟨fun s pc0 image => ⟨rfl, fun k => cell_natCast (construct pc0 image) k⟩,
    fun i s s' h => exec_memSize h, ?_⟩
  intro t s ht
  cases t with
  | construct pc0 image => exact absurd rfl (ht pc0 image)
  | step => exact stepTransaction_memSize s
  | run n => exact runTransaction_memSize n s
  | queryPc => rfl
  | queryMem => rfl
  | queryFault => rfl

/-! ### What a changed cell holds (10_state.md R19) -/

/-- The cell is as before, or it holds the canonical text of an `Int_W`. -/
def KeptOrCounter (s s' : State) (b : Int) : Prop :=
  s'.cell b = s.cell b ∨ ∃ v, InIntW v ∧ s'.cell b = some (render v)

/-- The write of a counter to an existing cell changes that cell alone. -/
theorem commit_counter_keptOrCounter {s : State} {a v : Int} {sel : PcSelect} (ha : s.hasCell a) (hv : InIntW v)
    (b : Int) : KeptOrCounter s (commit s (some (a, render v)) sel) b := by
  by_cases hb : b = a
  · subst hb
    exact .inr ⟨v, hv, commit_cell_same ha⟩
  · exact .inl (commit_cell_other hb)

/-- A counter below `INT_MAX` has its successor in `Int_W` (41_succ.md R77). -/
theorem lenient_succ_inIntW {t : Text} (h : lenient t ≠ Config.intMax) : InIntW (lenient t + 1) := by
  obtain ⟨hlo, hhi⟩ := lenient_inIntW t
  exact ⟨by omega, by omega⟩

/-- A counter above `INT_MIN` has its predecessor in `Int_W` (42_beqz_pred.md R81). -/
theorem lenient_pred_inIntW {t : Text} (h : lenient t ≠ Config.intMin) : InIntW (lenient t - 1) := by
  obtain ⟨hlo, hhi⟩ := lenient_inIntW t
  exact ⟨by omega, by omega⟩

/-- Whatever an instruction writes is a counter in range. -/
theorem dispatch_ok_keptOrCounter {i : Instr} {s s' : State} {g : Signal} (h : dispatch i s = .ok (g, s'))
    (b : Int) : KeptOrCounter s s' b := by
  cases i with
  | exit => cases h; exact .inl rfl
  | succ target =>
    obtain ⟨-, a, t, -, ht, hmax, rfl⟩ := succBody_ok h
    exact commit_counter_keptOrCounter (hasCell_of_cell ht) (lenient_succ_inIntW hmax) b
  | beqzPred test jump =>
    obtain ⟨-, ta, t, -, ht, ⟨-, ja, -, -, rfl⟩ | ⟨-, hmin, rfl⟩⟩ := beqzPredBody_ok h
    · exact .inl (commit_none_cell s (.load ja) b)
    · exact commit_counter_keptOrCounter (hasCell_of_cell ht) (lenient_pred_inIntW hmin) b

/-- Settles O35: a fault entry changes no cell, and a commit writes counters alone (`dispatch_ok_keptOrCounter`). -/
theorem writtenCellsAreCanonicalCounters : Obligations.WrittenCellsAreCanonicalCounters := by
  intro s s' a h hne
  obtain ⟨-, ⟨f, -, rfl⟩ | ⟨-, i, g, hd⟩⟩ := step_cases h
  · exact absurd (takeFault_cell s f a) hne
  · exact (dispatch_ok_keptOrCounter hd a).resolve_left hne

/-! ### The queries (10_state.md R25) -/

/-- The reads of all cells in index order give the memory. -/
theorem map_memRead_range (s : State) : ((List.range s.memSize).map fun k : Nat => s.memRead k) = s.mem := by
  refine List.ext_getElem (by simp [State.memSize]) fun k _ hk => ?_
  simp [State.memRead, hk]

/-- Settles O45: QUERY_MEM answers the cells read one by one (`map_memRead_range`). -/
theorem queriesOnlyRead : Obligations.QueriesOnlyRead := by
  intro s
  refine ⟨rfl, ?_, rfl⟩
  rw [map_memRead_range]
  rfl

end Sys2Proof.Machine

/-! What a step reads from memory: BSA and ARM in every case (20_memory.md R31 to R37), the text of a written counter,
and a counter that is fetched by the step after its write (20_memory.md R43). -/

namespace Sys2Proof

/-! ### The text of a written counter (30_encoding.md R49) -/

theorem isDigit_of_mem_toDigits {n : Nat} : ∀ c ∈ Nat.toDigits 10 n, c.isDigit = true := fun _ =>
  Nat.isDigit_of_mem_toDigits (by decide) (by decide)

/-- A digit string begins with a digit, so with no sign. -/
theorem head_toDigits_isDigit {n : Nat} {c : Char} (h : (Nat.toDigits 10 n).head? = some c) : c.isDigit = true :=
  isDigit_of_mem_toDigits c (List.mem_of_head? h)

/-- A counter is written with the sign `-` exactly where it is negative. -/
theorem render_head_eq_minus_iff (v : Int) : (render v).head? = some '-' ↔ v < 0 := by
  unfold render
  split
  · next hneg => simp [hneg]
  · next hnn =>
    refine iff_of_false (fun hh => ?_) hnn
    exact absurd (head_toDigits_isDigit hh) (by decide)

/-- What follows the sign of a written counter is the digits of its absolute value. -/
theorem unsignedPart_render (v : Int) : unsignedPart (render v) = Nat.toDigits 10 v.natAbs := by
  unfold render
  split
  · rfl
  · cases hds : Nat.toDigits 10 v.natAbs with
    | nil => rfl
    | cons c cs =>
      have hc : c.isDigit = true := head_toDigits_isDigit (n := v.natAbs) (by rw [hds]; rfl)
      have hsign : ¬ (c = '+' ∨ c = '-') := by
        rintro (rfl | rfl) <;> exact absurd hc (by decide)
      exact if_neg hsign

theorem isIntLiteral_render (v : Int) : isIntLiteral (render v) = true := by
  rw [isIntLiteral, unsignedPart_render, Bool.and_eq_true, List.all_eq_true]
  exact ⟨by simp [Nat.toDigits_ne_nil], isDigit_of_mem_toDigits⟩

theorem literalValue_render (v : Int) : literalValue (render v) = v := by
  unfold literalValue
  rw [unsignedPart_render, Nat.ofDigitChars_toDigits (by decide) (by decide)]
  simp only [render_head_eq_minus_iff]
  split <;> omega

/-- The strict parse reads a written counter back. -/
theorem parseInt_render {v : Int} (hv : InIntW v) : parseInt (render v) = some v := by
  rw [parseInt, literalValue_render, if_pos ⟨isIntLiteral_render v, hv⟩]

/-! ### Integer literals are data (30_encoding.md R60, R61) -/

/-- Trimming leaves a text without whitespace alone. -/
theorem trim_of_no_ws {t : Text} (h : ∀ c ∈ t, isWs c = false) : trim t = t := by
  have hstart : ∀ u : Text, (∀ c ∈ u, isWs c = false) → trimStart u = u := fun u hu =>
    List.dropWhile_eq_self_iff.mpr fun hl => by simp [hu _ (List.getElem_mem hl)]
  rw [trim, hstart t h, trimEnd, hstart t.reverse (by simpa using h), List.reverse_reverse]

theorem trim_of_isIntLiteral {t : Text} (h : isIntLiteral t = true) : trim t = t :=
  trim_of_no_ws (literal_not_ws h)

/-- An integer literal is one token, and it is not the keyword of the one format that has a single token. -/
theorem decode_of_isIntLiteral {t : Text} (h : isIntLiteral t = true) : decode t = .error .notAnInstruction := by
  have hne : t ≠ [] := by rintro rfl; cases h
  have hkey : t ≠ exitKeyword := by rintro rfl; exact absurd h (by decide)
  simp [decode, tokens_word hne (literal_not_ws h), hkey]

/-- The strict read of a cell reads a written counter back, whatever `PARSE_TRIMS` is. -/
theorem cellInt_render {v : Int} (hv : InIntW v) : cellInt (render v) = some v := by
  rw [cellInt_of_trimmed (trim_of_isIntLiteral (isIntLiteral_render v)), parseInt_render hv]

end Sys2Proof

namespace Sys2Proof.Machine

/-- A written counter is data (70_reset_and_hazards.md R109). -/
theorem classify_render {v : Int} (hv : InIntW v) : classify (render v) = .data := by
  have hlit := isIntLiteral_render v
  simp [classify, trim_of_isIntLiteral hlit, decode_of_isIntLiteral hlit, cellInt_render hv]

/-! ### BSA and ARM (20_memory.md R31 to R37) -/

/-- Settles O16: the two sides of `hasCell`, each answered by its rule. -/
theorem checkAdmitsExactlyTheCells : Obligations.CheckAdmitsExactlyTheCells := by
  intro s a
  constructor
  · intro hout
    refine check_of_not_hasCell ?_
    rintro ⟨h0, hN⟩
    unfold State.memSize at hN
    omega
  · exact check_of_hasCell

theorem resolve_direct {s : State} {op : Operand} (hm : op.mode = .direct) : resolve s op = .ok op.lit := by
  rw [resolve, hm]

theorem resolve_indirect_of_not_hasCell {s : State} {op : Operand} (hm : op.mode = .indirect)
    (hn : ¬ s.hasCell op.lit) : resolve s op = .error (.outOfBounds op.lit s.memSize) := by
  rw [resolve, hm, check_of_not_hasCell hn]
  rfl

/-- An indirect operand whose pointer cell exists resolves by the strict read of that cell alone. -/
theorem resolve_indirect_of_cell {s : State} {op : Operand} {t : Text} (hm : op.mode = .indirect)
    (ht : s.cell op.lit = some t) :
    resolve s op = (cellInt t).elim (.error (.malformedIndirectTarget op.lit t)) .ok := by
  rw [resolve, hm, check_of_hasCell (hasCell_of_cell ht), memRead_of_cell ht]
  cases cellInt t <;> rfl

/-- Settles O17: by the mode, whether the pointer cell exists, and its strict read. -/
theorem resolveSelectsDirectOrIndirect : Obligations.ResolveSelectsDirectOrIndirect := by
  intro s op
  refine ⟨resolve_direct, resolve_indirect_of_not_hasCell, ?_, ?_⟩
  · intro t hm ht hv
    rw [resolve_indirect_of_cell hm ht, hv]
    rfl
  · intro t a hm ht hv
    rw [resolve_indirect_of_cell hm ht, hv]
    rfl

/-! ### A step, by the text at `pc` (40_dispatch.md R65 to R67) -/

/-- A live core whose text at `pc` decodes executes the instruction. -/
theorem step_of_decode {s : State} {c : Text} {i : Instr} (hlive : s.fault = none) (hc : s.cell s.pc = some c)
    (hd : decode (trim c) = .ok i) : step s = exec i s := by
  rw [step, hlive, fetchDecode_of_cell hc, classify_of_decode hd]

/-- A live core whose text at `pc` is data faults with that text. -/
theorem step_of_data {s : State} {c : Text} (hlive : s.fault = none) (hc : s.cell s.pc = some c)
    (hk : classify c = .data) : step s = .next (s.takeFault (.executingData s.pc c)) := by
  rw [step, hlive, fetchDecode_of_cell hc, hk]

/-- `succ` below `INT_MAX` commits the incremented counter (41_succ.md R77). -/
theorem exec_succ_of_counter {s : State} {target : Operand} {a : Int} {t : Text} (hr : resolve s target = .ok a)
    (ht : s.cell a = some t) (hmax : lenient t ≠ Config.intMax) :
    exec (.succ target) s = .next (commit s (some (a, render (lenient t + 1))) .inc) := by
  have hbody : succBody target s = .ok (.cont, commit s (some (a, render (lenient t + 1))) .inc) := by
    simp [succBody, hr, check_of_hasCell (hasCell_of_cell ht), readCounter_of_cell ht, succOverflows, hmax,
      counterWrite, bind, Except.bind]
  rw [exec_eq_settle, dispatch, hbody, settle_ok]

/-- Settles O37: the first step commits the write of the cell at its next `pc`, and the written text is data
(`classify_render`). -/
theorem fetchSeesTheLatestWrite : Obligations.FetchSeesTheLatestWrite := by
  intro s s' c t target hlive hc hd hr ht hmax hstep
  have hfirst : step s = .next (commit s (some (s.pc + 1, render (lenient t + 1))) .inc) :=
    (step_of_decode hlive hc hd).trans (exec_succ_of_counter hr ht hmax)
  obtain rfl := Host.Outcome.next.inj (hfirst.symm.trans hstep)
  exact step_of_data hlive (commit_cell_same (hasCell_of_cell ht)) (classify_render (lenient_succ_inIntW hmax))

end Sys2Proof.Machine

/-! The text layer and the decoder: what trimming and tokenising do to a text, which texts are integers and which are
instructions, and the round trip between an instruction and its text (30_encoding.md R46 to R61). -/

namespace Sys2Proof

/-! ### Whitespace and trimming (30_encoding.md R47, R50) -/

/-- Settles O1: the ranges of `isWs` written out. -/
theorem whitespaceIsTheListedSet : Obligations.WhitespaceIsTheListedSet := by
  intro c
  simp only [isWs, Bool.or_eq_true, Bool.and_eq_true, decide_eq_true_eq, beq_iff_eq, List.mem_cons,
    List.not_mem_nil, or_false]
  omega

/-- What is cut off a text's start is whitespace. -/
theorem exists_ws_append_trimStart (t : Text) : ∃ pre, t = pre ++ trimStart t ∧ ∀ c ∈ pre, isWs c = true :=
  ⟨t.takeWhile isWs, List.takeWhile_append_dropWhile.symm, fun _ => List.mem_takeWhile_imp⟩

/-- What is cut off a text's end is whitespace. -/
theorem exists_trimEnd_append_ws (t : Text) : ∃ suf, t = trimEnd t ++ suf ∧ ∀ c ∈ suf, isWs c = true := by
  obtain ⟨pre, hpre, hws⟩ := exists_ws_append_trimStart t.reverse
  refine ⟨pre.reverse, ?_, by simpa using hws⟩
  rw [trimEnd, ← List.reverse_append, ← hpre, List.reverse_reverse]

/-- What trimming cuts off, on either side, is whitespace. -/
theorem exists_ws_append_trim_append_ws (t : Text) :
    ∃ pre suf, t = pre ++ trim t ++ suf ∧ (∀ c ∈ pre, isWs c = true) ∧ (∀ c ∈ suf, isWs c = true) := by
  obtain ⟨pre, hpre, hpw⟩ := exists_ws_append_trimStart t
  obtain ⟨suf, hsuf, hsw⟩ := exists_trimEnd_append_ws (trimStart t)
  refine ⟨pre, suf, ?_, hpw, hsw⟩
  rw [trim, List.append_assoc, ← hsuf, ← hpre]

theorem isWs_head_trimStart {t : Text} {c : Char} (h : (trimStart t).head? = some c) : isWs c = false := by
  have hhead := List.head?_dropWhile_not isWs t
  rwa [show (t.dropWhile isWs).head? = some c from h] at hhead

theorem isWs_getLast_trimEnd {t : Text} {c : Char} (h : (trimEnd t).getLast? = some c) : isWs c = false := by
  rw [trimEnd, List.getLast?_reverse] at h
  exact isWs_head_trimStart h

/-- The end is cut off after the start, so the first character stays. -/
theorem isWs_head_trim {t : Text} {c : Char} (h : (trim t).head? = some c) : isWs c = false := by
  obtain ⟨suf, hsuf, -⟩ := exists_trimEnd_append_ws (trimStart t)
  have hstart : (trimStart t).head? = some c := by
    rw [hsuf, List.head?_append, show (trimEnd (trimStart t)).head? = some c from h, Option.some_or]
  exact isWs_head_trimStart hstart

/-- Settles O2: each end by the cut that is made there. -/
theorem trimRemovesLongestWhitespaceEnds : Obligations.TrimRemovesLongestWhitespaceEnds := fun t =>
  ⟨exists_ws_append_trim_append_ws t, fun _ => isWs_head_trim, fun _ => isWs_getLast_trimEnd⟩

/-! ### Tokens (30_encoding.md R51) -/

theorem tokens_of_ws {t : Text} (h : ∀ c ∈ t, isWs c = true) : tokens t = [] := by
  simpa [tokens] using tokens_append_ws_left [] h

/-- Settles O3: the leading whitespace adds no token, and the run after it is the first one. -/
theorem tokensAreTheMaximalRuns : Obligations.TokensAreTheMaximalRuns := by
  refine ⟨fun t => tokens_of_ws, fun gap run rest hgap hne hrun hrest => ?_⟩
  rw [List.append_assoc, tokens_append_ws_left _ hgap, tokens_run hne hrun hrest]

/-- Whitespace after a text adds no token. -/
theorem tokens_append_ws_right (t : Text) {w : Text} (h : ∀ c ∈ w, isWs c = true) :
    tokens (t ++ w) = tokens t := by
  induction t with
  | nil => exact tokens_of_ws h
  | cons c cs ih =>
    by_cases hc : isWs c = true
    · rw [List.cons_append, tokens_cons_ws _ hc, tokens_cons_ws _ hc, ih]
    · have hc' : isWs c = false := by simpa using hc
      cases cs with
      | nil => rw [List.cons_append, tokens_cons_last hc' ih, tokens_cons_last hc' rfl]
      | cons d ds => rw [List.cons_append, tokens, ih, tokens]; rfl

theorem tokens_trim (t : Text) : tokens (trim t) = tokens t := by
  obtain ⟨pre, suf, ht, hpre, hsuf⟩ := exists_ws_append_trim_append_ws t
  conv_rhs => rw [ht, tokens_append_ws_right _ hsuf, tokens_append_ws_left _ hpre]

theorem decode_trim (t : Text) : decode (trim t) = decode t := by
  rw [decode, tokens_trim, decode]

/-- Settles O4: the ends that are cut off add no token, and the decoder reads the tokens alone. -/
theorem trimmingChangesNoToken : Obligations.TrimmingChangesNoToken := fun t => ⟨tokens_trim t, decode_trim t⟩

/-- A token, a gap and more text: the token is first. -/
theorem tokens_word_gap {w gap : Text} (rest : Text) (hne : w ≠ []) (hw : ∀ c ∈ w, isWs c = false)
    (hgne : gap ≠ []) (hgap : ∀ c ∈ gap, isWs c = true) : tokens (w ++ (gap ++ rest)) = w :: tokens rest := by
  have hhead : ∀ d, (gap ++ rest).head? = some d → isWs d = true := by
    intro d hd
    rw [List.head?_append_of_ne_nil _ hgne] at hd
    exact hgap d (List.mem_of_head? hd)
  rw [tokens_run hne hw hhead, tokens_append_ws_left rest hgap]

/-- A token and whitespace after it. -/
theorem tokens_word_trail {w trail : Text} (hne : w ≠ []) (hw : ∀ c ∈ w, isWs c = false)
    (htrail : ∀ c ∈ trail, isWs c = true) : tokens (w ++ trail) = [w] := by
  rw [tokens_append_ws_right w htrail, tokens_word hne hw]

/-! ### Integer literals (30_encoding.md R46) -/

/-- A non-empty string of ASCII digits, the `digit+` of R46. -/
def DigitString (ds : Text) : Prop := ds ≠ [] ∧ ∀ c ∈ ds, '0' ≤ c ∧ c ≤ '9'

/-- The base-10 value of a digit string, most significant digit first, as R46 computes it. -/
def digitsValue (ds : Text) : Int := ds.foldl (fun (acc : Int) c => 10 * acc + ((c.toNat : Int) - 48)) 0

theorem isDigit_iff (c : Char) : c.isDigit = true ↔ '0' ≤ c ∧ c ≤ '9' := Char.isDigit_iff_toNat

theorem digitString_iff {ds : Text} : DigitString ds ↔ ds ≠ [] ∧ ∀ c ∈ ds, c.isDigit = true := by
  simp only [DigitString, isDigit_iff]

/-- Digit by digit, the value of R46 after the digits read so far is the model's. -/
theorem foldl_digits_eq_ofDigitChars {ds : Text} (h : ∀ c ∈ ds, c.isDigit = true) (n : Nat) :
    ds.foldl (fun (acc : Int) c => 10 * acc + ((c.toNat : Int) - 48)) n = Nat.ofDigitChars 10 ds n := by
  induction ds generalizing n with
  | nil => rfl
  | cons c cs ih =>
    have hc : 48 ≤ c.toNat := (Char.isDigit_iff_toNat.mp (h c (by simp))).1
    rw [Nat.ofDigitChars_cons, ← ih (fun d hd => h d (by simp [hd])), List.foldl_cons]
    congr 1
    rw [show '0'.toNat = 48 from rfl]
    omega

/-- `digitsValue` is the value the model reads the digits as. -/
theorem DigitString.digitsValue_eq {ds : Text} (h : DigitString ds) :
    digitsValue ds = Nat.ofDigitChars 10 ds 0 :=
  foldl_digits_eq_ofDigitChars (digitString_iff.mp h).2 0

/-- A digit string begins with no sign. -/
theorem DigitString.unsignedPart_eq {ds : Text} (h : DigitString ds) : unsignedPart ds = ds := by
  obtain ⟨hne, hd⟩ := digitString_iff.mp h
  cases ds with
  | nil => exact absurd rfl hne
  | cons c cs =>
    have hc : c.isDigit = true := hd c (by simp)
    have hsign : ¬ (c = '+' ∨ c = '-') := by
      rintro (rfl | rfl) <;> exact absurd hc (by decide)
    exact if_neg hsign

/-- A text is an integer literal exactly where its unsigned part is a digit string. -/
theorem isIntLiteral_iff_unsignedPart {t : Text} : isIntLiteral t = true ↔ DigitString (unsignedPart t) := by
  simp [isIntLiteral, digitString_iff]

/-- What precedes the unsigned part is one sign or nothing. -/
theorem eq_signed_unsignedPart (t : Text) :
    t = unsignedPart t ∨ t = '+' :: unsignedPart t ∨ t = '-' :: unsignedPart t := by
  cases t with
  | nil => exact .inl rfl
  | cons c cs =>
    by_cases hplus : c = '+'
    · subst hplus; exact .inr (.inl rfl)
    · by_cases hminus : c = '-'
      · subst hminus; exact .inr (.inr rfl)
      · exact .inl (by simp [unsignedPart, hplus, hminus])

/-- The strict parse of an integer literal (30_encoding.md R46). -/
theorem parseInt_of_isIntLiteral {t : Text} (h : isIntLiteral t = true) :
    parseInt t = if InIntW (literalValue t) then some (literalValue t) else none := by
  simp [parseInt, h]

theorem parseInt_eq_some_iff {t : Text} {v : Int} :
    parseInt t = some v ↔ isIntLiteral t = true ∧ literalValue t = v ∧ InIntW v := by
  unfold parseInt
  constructor
  · intro h
    split at h
    · next hc => cases h; exact ⟨hc.1, rfl, hc.2⟩
    · cases h
  · rintro ⟨hl, rfl, hr⟩
    exact if_pos ⟨hl, hr⟩

theorem isIntLiteral_of_parseInt {t : Text} (h : (parseInt t).isSome = true) : isIntLiteral t = true := by
  obtain ⟨v, hv⟩ := Option.isSome_iff_exists.mp h
  exact (parseInt_eq_some_iff.mp hv).1

section DigitString
variable {ds : Text}

theorem DigitString.isIntLiteral_plain (h : DigitString ds) : isIntLiteral ds = true :=
  isIntLiteral_iff_unsignedPart.mpr (by rwa [h.unsignedPart_eq])

theorem DigitString.isIntLiteral_plus (h : DigitString ds) : isIntLiteral ('+' :: ds) = true :=
  isIntLiteral_iff_unsignedPart.mpr h

theorem DigitString.isIntLiteral_minus (h : DigitString ds) : isIntLiteral ('-' :: ds) = true :=
  isIntLiteral_iff_unsignedPart.mpr h

theorem DigitString.literalValue_plain (h : DigitString ds) : literalValue ds = digitsValue ds := by
  have hhead : ds.head? ≠ some '-' := fun hh =>
    absurd ((digitString_iff.mp h).2 '-' (List.mem_of_head? hh)) (by decide)
  rw [literalValue, h.unsignedPart_eq, if_neg hhead, h.digitsValue_eq]

theorem DigitString.literalValue_plus (h : DigitString ds) : literalValue ('+' :: ds) = digitsValue ds :=
  h.digitsValue_eq.symm

theorem DigitString.literalValue_minus (h : DigitString ds) : literalValue ('-' :: ds) = -digitsValue ds := by
  rw [h.digitsValue_eq]
  rfl

end DigitString

/-- Settles O5: the three forms by the value of each literal; a text of no such form is no literal
(`eq_signed_unsignedPart`). -/
theorem parseIntReadsSignedDecimals : Obligations.ParseIntReadsSignedDecimals := by
  constructor
  · intro ds hne hd
    have h : DigitString ds := ⟨hne, hd⟩
    refine ⟨?_, ?_, ?_⟩
    · rw [parseInt_of_isIntLiteral h.isIntLiteral_plain, h.literalValue_plain]; rfl
    · rw [parseInt_of_isIntLiteral h.isIntLiteral_plus, h.literalValue_plus]; rfl
    · rw [parseInt_of_isIntLiteral h.isIntLiteral_minus, h.literalValue_minus]; rfl
  · intro t hform
    have hlit : ¬ isIntLiteral t = true := by
      intro hl
      obtain ⟨hne, hd⟩ := isIntLiteral_iff_unsignedPart.mp hl
      obtain ⟨hplain, hplus, hminus⟩ := hform _ hne hd
      obtain h | h | h := eq_signed_unsignedPart t
      · exact hplain h
      · exact hplus h
      · exact hminus h
    simp [parseInt, hlit]

/-! ### The canonical text (30_encoding.md R49) -/

/-- The digits of a positive number begin with no zero. -/
theorem head_toDigits_ne_zero {n : Nat} (hn : 0 < n) : (Nat.toDigits 10 n).head? ≠ some '0' := by
  induction n using Nat.strong_induction_on with
  | _ n ih =>
    obtain hlt | hge := lt_or_ge n 10
    · rw [Nat.toDigits_of_lt_base hlt]
      interval_cases n <;> decide
    · rw [Nat.toDigits_of_base_le (by decide) hge, List.head?_append_of_ne_nil _ Nat.toDigits_ne_nil]
      exact ih (n / 10) (by omega) (by omega)

theorem digitString_toDigits (n : Nat) : DigitString (Nat.toDigits 10 n) :=
  digitString_iff.mpr ⟨Nat.toDigits_ne_nil, isDigit_of_mem_toDigits⟩

theorem digitsValue_toDigits (n : Nat) : digitsValue (Nat.toDigits 10 n) = n := by
  rw [(digitString_toDigits n).digitsValue_eq, Nat.ofDigitChars_ten_toDigits]

/-- Settles O7: the digits are those of the absolute value. -/
theorem renderIsCanonicalDecimal : Obligations.RenderIsCanonicalDecimal := by
  refine ⟨by decide, fun v _ => ?_⟩
  obtain ⟨hne, hd⟩ := digitString_toDigits v.natAbs
  refine ⟨Nat.toDigits 10 v.natAbs, hne, hd, fun hv => head_toDigits_ne_zero (by omega), ?_, rfl⟩
  exact (digitsValue_toDigits v.natAbs).trans (Int.natCast_natAbs v)

/-- Settles O8: every read of a written counter is the strict parse, which reads it back. -/
theorem renderedCountersReadBack : Obligations.RenderedCountersReadBack := fun v hv =>
  ⟨parseInt_render hv, trim_of_isIntLiteral (isIntLiteral_render v), cellInt_render hv,
    lenient_of_cellInt (cellInt_render hv)⟩

/-- Settles O6: the four clauses are the laws of the two reads. -/
theorem cellReadsFollowParseTrims : Obligations.CellReadsFollowParseTrims := fun t =>
  ⟨cellInt_eq t, fun _ => lenient_of_cellInt, lenient_of_none, cellInt_of_trimmed⟩

/-! ### Operands (30_encoding.md R54, R55) -/

theorem modeOfSigil_eq_some_iff {c : Char} {m : Mode} : modeOfSigil c = some m ↔ c = sigilOf m := by
  unfold modeOfSigil
  constructor
  · intro h
    split at h
    · next hc => cases h; exact hc
    · split at h
      · next hc => cases h; exact hc
      · cases h
  · rintro rfl
    cases m <;> rfl

/-- The tokens that spell an operand are those of the well-formed operands, each its own. -/
theorem decodeOperand_eq_some_iff {k : Text} {o : Operand} :
    decodeOperand k = some o ↔ o.wf = true ∧ o.text = k := by
  rw [Operand.wf_iff]
  constructor
  · intro h
    cases k with
    | nil => cases h
    | cons c literal =>
      cases hm : modeOfSigil c with
      | none => simp [decodeOperand, hm] at h
      | some m =>
        cases hv : parseInt literal with
        | none => simp [decodeOperand, hm, hv] at h
        | some v =>
          simp only [decodeOperand, hm, hv, Option.some.injEq] at h
          subst h
          obtain ⟨hlit, hval, hrange⟩ := parseInt_eq_some_iff.mp hv
          exact ⟨⟨hrange, literal, by rw [modeOfSigil_eq_some_iff.mp hm], hlit, hval⟩, rfl⟩
  · rintro ⟨⟨hrange, literal, htext, hlit, hval⟩, rfl⟩
    rw [htext, decodeOperand, modeOfSigil_eq_some_iff.mpr rfl, parseInt_eq_some_iff.mpr ⟨hlit, hval, hrange⟩,
      ← htext]

theorem decodeOperand_text {o : Operand} (h : o.wf = true) : decodeOperand o.text = some o :=
  decodeOperand_eq_some_iff.mpr ⟨h, rfl⟩

theorem canonical_wf (m : Mode) {v : Int} (hv : InIntW v) : (Operand.canonical m v).wf = true :=
  Operand.wf_iff.mpr ⟨hv, render v, rfl, isIntLiteral_render v, literalValue_render v⟩

/-- Settles O10: the canonical spelling is well formed, so its token spells it. -/
theorem everyLiteralHasAnOperand : Obligations.EveryLiteralHasAnOperand := fun m _ hv =>
  ⟨canonical_wf m hv, decodeOperand_text (canonical_wf m hv)⟩

/-- A sigil is neither a sign nor a digit. -/
theorem isIntLiteral_sigil_cons (m : Mode) (rest : Text) : isIntLiteral (sigilOf m :: rest) = false := by
  cases m <;> rfl

/-- Settles O14: what follows the first character is no literal, because it begins with a sigil. -/
theorem secondSigilIsRejected : Obligations.SecondSigilIsRejected := by
  intro k m rest
  have hparse : parseInt (sigilOf m :: rest) = none := by simp [parseInt, isIntLiteral_sigil_cons]
  simp [decodeOperand, hparse]

/-! ### Instructions (30_encoding.md R52, R58) -/

/-- What the decoder accepts is a well-formed instruction, and the text has that instruction's tokens. -/
theorem decode_ok {t : Text} {i : Instr} (h : decode t = .ok i) : i.wf = true ∧ tokens t = i.tokenTexts := by
  unfold decode at h
  split at h
  · next k ht =>
    split at h
    · next hk => cases h; exact ⟨rfl, by rw [ht, hk]; rfl⟩
    · cases h
  · next k a ht =>
    split at h
    · next hk =>
      split at h
      · next target ha =>
        cases h
        obtain ⟨hwf, rfl⟩ := decodeOperand_eq_some_iff.mp ha
        exact ⟨hwf, by rw [ht, hk]; rfl⟩
      · cases h
    · cases h
  · next k a b ht =>
    split at h
    · next hk =>
      split at h
      · next test jump ha hb =>
        cases h
        obtain ⟨hwft, rfl⟩ := decodeOperand_eq_some_iff.mp ha
        obtain ⟨hwfj, rfl⟩ := decodeOperand_eq_some_iff.mp hb
        exact ⟨Bool.and_eq_true_iff.mpr ⟨hwft, hwfj⟩, by rw [ht, hk]; rfl⟩
      · cases h
    · cases h
  · cases h

/-- A text with the tokens of a well-formed instruction decodes to it. -/
theorem decode_of_tokens {t : Text} {i : Instr} (hwf : i.wf = true) (ht : tokens t = i.tokenTexts) :
    decode t = .ok i := by
  unfold decode
  rw [ht]
  cases i with
  | exit => rfl
  | succ target => simp [Instr.tokenTexts, decodeOperand_text hwf]
  | beqzPred test jump =>
    obtain ⟨hwft, hwfj⟩ := Bool.and_eq_true_iff.mp hwf
    simp [Instr.tokenTexts, decodeOperand_text hwft, decodeOperand_text hwfj]

/-- The tokens of a well-formed instruction's text, whatever the format. -/
theorem tokens_encode {i : Instr} (h : i.wf = true) : tokens (encode i) = i.tokenTexts := by
  cases i with
  | exit => exact Laws.EncodeTokens.exit h
  | succ target => exact Laws.EncodeTokens.succ target h
  | beqzPred test jump => exact Laws.EncodeTokens.beqzPred test jump h

/-- Settles O9: the text has the instruction's tokens, and those decode to it. -/
theorem decodeReadsBackEveryEncoding : Obligations.DecodeReadsBackEveryEncoding := fun _ hwf =>
  decode_of_tokens hwf (tokens_encode hwf)

/-- Settles O11: both texts have the instruction's tokens. -/
theorem decodeAcceptsOnlyEncodings : Obligations.DecodeAcceptsOnlyEncodings := by
  intro t i h
  obtain ⟨hwf, ht⟩ := decode_ok h
  exact ⟨hwf, ht.trans (tokens_encode hwf).symm⟩

theorem exitKeyword_token : ∀ c ∈ exitKeyword, isWs c = false := by
  simp [exitKeyword, isWs]

/-- Settles O12: each spelling has the tokens of the instruction. -/
theorem anyWhitespaceSpellsTheSame : Obligations.AnyWhitespaceSpellsTheSame := by
  intro lead gap gap' trail hws hgne hgne'
  simp only [List.forall_mem_append] at hws
  obtain ⟨⟨⟨hlead, hgap⟩, hgap'⟩, htrail⟩ := hws
  simp only [List.append_assoc]
  refine ⟨?_, fun target hwf => ?_, fun test jump hwft hwfj => ?_⟩
  · refine decode_of_tokens rfl ?_
    rw [tokens_append_ws_left _ hlead, tokens_word_trail (by decide) exitKeyword_token htrail]
    rfl
  · obtain ⟨hne, hw⟩ := Operand.text_token hwf
    refine decode_of_tokens hwf ?_
    rw [tokens_append_ws_left _ hlead, tokens_word_gap _ (by decide) succKeyword_token hgne hgap,
      tokens_word_trail hne hw htrail]
    rfl
  · obtain ⟨htne, htw⟩ := Operand.text_token hwft
    obtain ⟨hjne, hjw⟩ := Operand.text_token hwfj
    refine decode_of_tokens (Bool.and_eq_true_iff.mpr ⟨hwft, hwfj⟩) ?_
    rw [tokens_append_ws_left _ hlead, tokens_word_gap _ (by decide) beqzPredKeyword_token hgne hgap,
      tokens_word_gap _ htne htw hgne' hgap', tokens_word_trail hjne hjw htrail]
    rfl

/-- Settles O15: each word is evaluated. -/
theorem writtenOutWordsDecode : Obligations.WrittenOutWordsDecode := by
  unfold Obligations.WrittenOutWordsDecode
  decide

/-- A cell the strict read accepts does not decode, whatever `PARSE_TRIMS` is (30_encoding.md R61). -/
theorem decode_of_cellInt {t : Text} (h : (cellInt t).isSome = true) : decode t = .error .notAnInstruction := by
  rw [cellInt_eq] at h
  have hd := decode_of_isIntLiteral (isIntLiteral_of_parseInt h)
  split at hd
  · rwa [decode_trim] at hd
  · exact hd

/-- A cell that holds an instruction is no integer. -/
theorem cellInt_of_decode {t : Text} {i : Instr} (h : decode t = .ok i) : cellInt t = none := by
  by_contra hne
  rw [decode_of_cellInt (Option.isSome_iff_ne_none.mpr hne)] at h
  cases h

end Sys2Proof

namespace Sys2Proof.Machine

/-! ### The class of a fetched text (30_encoding.md R60, R61) -/

theorem classify_of_data {c : Text} (hd : decode (trim c) = .error .notAnInstruction)
    (hv : (cellInt c).isSome = true) : classify c = .data := by
  simp [classify, hd, hv]

theorem classify_of_invalid {c : Text} (hd : decode (trim c) = .error .notAnInstruction) (hv : cellInt c = none) :
    classify c = .invalid := by
  simp [classify, hd, hv]

/-- Settles O13: an integer literal is a token that is no instruction (`decode_of_isIntLiteral`), and so is a cell the
strict read accepts (`decode_of_cellInt`). -/
theorem integerTextsNeverDecode : Obligations.IntegerTextsNeverDecode := by
  intro t
  refine ⟨fun h => decode_of_isIntLiteral (isIntLiteral_of_parseInt h),
    fun h => decode_of_isIntLiteral (isIntLiteral_of_parseInt h), fun h => ?_,
    fun i h => lenient_of_none (cellInt_of_decode h)⟩
  exact classify_of_data ((decode_trim t).trans (decode_of_cellInt h)) h

/-- A live core whose text at `pc` is an instruction executes it. -/
theorem step_of_code {s : State} {c : Text} {i : Instr} (hlive : s.fault = none) (hc : s.cell s.pc = some c)
    (hk : classify c = .code i) : step s = exec i s := by
  rw [step, hlive, fetchDecode_of_cell hc, hk]

/-- A live core whose text at `pc` is invalid faults with that text. -/
theorem step_of_invalid {s : State} {c : Text} (hlive : s.fault = none) (hc : s.cell s.pc = some c)
    (hk : classify c = .invalid) : step s = .next (s.takeFault (.invalidInstruction s.pc c)) := by
  rw [step, hlive, fetchDecode_of_cell hc, hk]

/-- Settles O29: the step by the class, and the class by the decoder and the strict read. -/
theorem decodeStageFaults : Obligations.DecodeStageFaults := by
  intro s c hlive hc
  refine ⟨step_of_data hlive hc, step_of_invalid hlive hc, fun i => step_of_code hlive hc,
    fun i => step_of_decode hlive hc, fun v hd hv => ?_, fun hd hv => ?_⟩
  · exact step_of_data hlive hc (classify_of_data hd (by rw [hv]; rfl))
  · exact step_of_invalid hlive hc (classify_of_invalid hd hv)

/-- An integer literal outside `Int_W` is neither an instruction nor an integer (90_conflicts.md C2). -/
theorem classify_of_literal_out_of_range {c : Text} (hlit : isIntLiteral c = true)
    (hout : ¬ InIntW (literalValue c)) : classify c = .invalid := by
  have htrim : trim c = c := trim_of_isIntLiteral hlit
  refine classify_of_invalid (by rw [htrim, decode_of_isIntLiteral hlit]) ?_
  rw [cellInt_of_trimmed htrim, parseInt_of_isIntLiteral hlit, if_neg hout]

/-- Settles O52: each form is a literal whose value is out of range. -/
theorem outOfRangeDigitsAreInvalid : Obligations.OutOfRangeDigitsAreInvalid := by
  intro s c ds hlive hc hne hd m hform
  have h : DigitString ds := ⟨hne, hd⟩
  refine step_of_invalid hlive hc ?_
  obtain ⟨rfl | rfl, hout⟩ | ⟨rfl, hout⟩ := hform
  · exact classify_of_literal_out_of_range h.isIntLiteral_plain (by rwa [h.literalValue_plain])
  · exact classify_of_literal_out_of_range h.isIntLiteral_plus (by rwa [h.literalValue_plus])
  · exact classify_of_literal_out_of_range h.isIntLiteral_minus (by rwa [h.literalValue_minus])

end Sys2Proof.Machine

/-! The dispatcher: the fetch and the instruction it gives to `exec`, the answer of STEP, and RUN as its steps one after
another (40_dispatch.md). -/

namespace Sys2Proof.Machine

/-! ### The answer of STEP (40_dispatch.md R71) -/

/-- Of the instructions that commit, `exit` alone reports Halt, and it changes nothing. -/
theorem dispatch_ok_signal {i : Instr} {s s' : State} {g : Signal} (h : dispatch i s = .ok (g, s')) :
    (i = .exit ∧ g = .halt ∧ s' = s) ∨ (i ≠ .exit ∧ g = .cont) := by
  cases i with
  | exit => cases h; exact .inl ⟨rfl, rfl, rfl⟩
  | succ target => exact .inr ⟨nofun, (succBody_ok h).1⟩
  | beqzPred test jump => exact .inr ⟨nofun, (beqzPredBody_ok h).1⟩

theorem stepTransaction_of_faulted {s : State} {f : Fault} (h : s.fault = some f) :
    stepTransaction s = (.fault f, s) := by
  rw [stepTransaction, h]

/-- All that STEP can do in a live core: it halts at `exit`, commits another instruction, or enters a fault. -/
theorem stepTransaction_of_live {s : State} (hlive : s.fault = none) :
    (fetchDecode s = .ok .exit ∧ stepTransaction s = (.halt, s)) ∨
    (∃ i s', i ≠ .exit ∧ fetchDecode s = .ok i ∧ s'.fault = none ∧ stepTransaction s = (.cont, s')) ∨
    (fetchDecode s ≠ .ok .exit ∧ ∃ f, stepTransaction s = (.fault f, s.takeFault f)) := by
  obtain ⟨f, hf, -⟩ | ⟨-, g, s', hb, ht⟩ | ⟨-, f, hb, ht⟩ := stepTransaction_cases s
  · cases hlive.symm.trans hf
  · obtain ⟨i, hi, hd⟩ := stepBody_ok hb
    have hlive' : s'.fault = none := (dispatch_ok_frame hd).2.trans hlive
    obtain ⟨rfl, rfl, rfl⟩ | ⟨hne, rfl⟩ := dispatch_ok_signal hd
    · exact .inl ⟨hi, ht⟩
    · exact .inr (.inl ⟨i, s', hne, hi, hlive', ht⟩)
  · refine .inr (.inr ⟨fun hexit => ?_, f, ht⟩)
    rw [stepBody, hexit] at hb
    cases hb

/-- Settles O31: the three answers by what STEP can do in a live core (`stepTransaction_of_live`). -/
theorem stepResultsAreTheInstructions : Obligations.StepResultsAreTheInstructions := by
  intro s hlive
  obtain ⟨hi, ht⟩ | ⟨i, s', hne, hi, hlive', ht⟩ | ⟨hne, f, ht⟩ := stepTransaction_of_live hlive
  · simp [ht, hi, hlive]
  · simp [ht, hi, hne, hlive']
  · simp [ht, hne]

/-- A step that answers Continue leads from a live core to a live core. -/
theorem live_of_stepTransaction_cont {s s' : State} (h : stepTransaction s = (.cont, s')) :
    s.fault = none ∧ s'.fault = none := by
  cases hf : s.fault with
  | some f => rw [stepTransaction_of_faulted hf] at h; cases h
  | none =>
    obtain ⟨-, ht⟩ | ⟨i, t, -, -, hlive', ht⟩ | ⟨-, f, ht⟩ := stepTransaction_of_live hf
    · cases h.symm.trans ht
    · cases h.symm.trans ht; exact ⟨rfl, hlive'⟩
    · cases h.symm.trans ht

/-- A step that answers Halt stands at an `exit` cell of a live core, before and after. -/
theorem exit_of_stepTransaction_halt {s s' : State} (h : stepTransaction s = (.halt, s')) :
    s.fault = none ∧ fetchDecode s = .ok .exit ∧ s' = s := by
  cases hf : s.fault with
  | some f => rw [stepTransaction_of_faulted hf] at h; cases h
  | none =>
    obtain ⟨hi, ht⟩ | ⟨i, t, -, -, -, ht⟩ | ⟨-, f, ht⟩ := stepTransaction_of_live hf
    · cases h.symm.trans ht; exact ⟨rfl, hi, rfl⟩
    · cases h.symm.trans ht
    · cases h.symm.trans ht

/-- The fault STEP answers is latched after it, whether it was before or not. -/
theorem latched_of_stepTransaction_fault {s s' : State} {f : Fault} (h : stepTransaction s = (.fault f, s')) :
    s'.fault = some f := by
  obtain ⟨e, he, ht⟩ | ⟨-, g, t, -, ht⟩ | ⟨-, e, -, ht⟩ := stepTransaction_cases s
  · cases h.symm.trans ht; exact he
  · cases g <;> cases h.symm.trans ht
  · cases h.symm.trans ht; exact takeFault_fault s f

/-! ### RUN, by its first step (40_dispatch.md R72) -/

theorem runTransaction_of_faulted {s : State} {f : Fault} (n : Nat) (h : s.fault = some f) :
    runTransaction n s = (.faulted f, s) := by
  rw [runTransaction, h]

theorem runTransaction_of_live {s : State} (n : Nat) (h : s.fault = none) : runTransaction n s = runLoop n s := by
  rw [runTransaction, h]

theorem runTransaction_zero_of_live {s : State} (h : s.fault = none) : runTransaction 0 s = (.exhausted, s) :=
  runTransaction_of_live 0 h

theorem runTransaction_succ_of_cont {s s' : State} (n : Nat) (h : stepTransaction s = (.cont, s')) :
    runTransaction (n + 1) s = runTransaction n s' := by
  obtain ⟨hlive, hlive'⟩ := live_of_stepTransaction_cont h
  rw [runTransaction_of_live _ hlive, runTransaction_of_live _ hlive', runLoop, h]

theorem runTransaction_succ_of_halt {s s' : State} (n : Nat) (h : stepTransaction s = (.halt, s')) :
    runTransaction (n + 1) s = (.halted, s') := by
  obtain ⟨hlive, -, -⟩ := exit_of_stepTransaction_halt h
  rw [runTransaction_of_live _ hlive, runLoop, h]

theorem runTransaction_succ_of_fault {s s' : State} {f : Fault} (n : Nat) (h : stepTransaction s = (.fault f, s')) :
    runTransaction (n + 1) s = (.faulted f, s') := by
  cases hf : s.fault with
  | some e =>
    rw [stepTransaction_of_faulted hf] at h
    cases h
    exact runTransaction_of_faulted _ hf
  | none => rw [runTransaction_of_live _ hf, runLoop, h]

/-! ### Runs compose (40_dispatch.md R72, R73) -/

/-- A run with `n` more steps of budget: it goes on where it is exhausted, and stays where it has halted or faulted. -/
def extendRun (n : Nat) : RunResult × State → RunResult × State
  | (.exhausted, s) => runTransaction n s
  | (.halted, s) => (.halted, s)
  | (.faulted f, s) => (.faulted f, s)

theorem extendRun_of_exhausted {n : Nat} {r : RunResult × State} (h : r.1 = .exhausted) :
    extendRun n r = runTransaction n r.2 := by
  obtain ⟨_, s⟩ := r
  cases h
  rfl

theorem extendRun_of_not_exhausted {n : Nat} {r : RunResult × State} (h : r.1 ≠ .exhausted) :
    extendRun n r = r := by
  obtain ⟨_ | _ | f, s⟩ := r
  case exhausted => exact absurd rfl h
  case halted => rfl
  case faulted => rfl

/-- The budget of a run can be given in two parts. -/
theorem runTransaction_add (m n : Nat) (s : State) :
    runTransaction (m + n) s = extendRun n (runTransaction m s) := by
  induction m generalizing s with
  | zero =>
    rw [Nat.zero_add]
    cases hf : s.fault with
    | some f => rw [runTransaction_of_faulted n hf, runTransaction_of_faulted 0 hf, extendRun]
    | none => rw [runTransaction_zero_of_live hf, extendRun]
  | succ m ih =>
    rw [Nat.add_right_comm]
    rcases ht : stepTransaction s with ⟨_ | _ | f, s'⟩
    case cont => rw [runTransaction_succ_of_cont _ ht, runTransaction_succ_of_cont _ ht, ih]
    case halt => rw [runTransaction_succ_of_halt _ ht, runTransaction_succ_of_halt _ ht, extendRun]
    case fault => rw [runTransaction_succ_of_fault _ ht, runTransaction_succ_of_fault _ ht, extendRun]

/-- A run that exhausts its budget is continued by more budget. -/
theorem runTransaction_add_of_exhausted {m : Nat} (n : Nat) {s : State} (h : (runTransaction m s).1 = .exhausted) :
    runTransaction (m + n) s = runTransaction n (runTransaction m s).2 :=
  (runTransaction_add m n s).trans (extendRun_of_exhausted h)

/-- A run that halts or faults is not changed by more budget. -/
theorem runTransaction_add_of_not_exhausted {m : Nat} (n : Nat) {s : State}
    (h : (runTransaction m s).1 ≠ .exhausted) : runTransaction (m + n) s = runTransaction m s :=
  (runTransaction_add m n s).trans (extendRun_of_not_exhausted h)

/-- Settles O42: the two cases of a budget given in two parts (`runTransaction_add`). -/
theorem runsCompose : Obligations.RunsCompose := fun _ n _ =>
  ⟨runTransaction_add_of_exhausted n, runTransaction_add_of_not_exhausted n⟩

/-! ### Where a run ends (40_dispatch.md R74) -/

/-- What a run's result says of the state it leaves. -/
def RunResult.describes : RunResult → State → Prop
  | .exhausted, s => s.fault = none
  | .halted, s => s.fault = none ∧ fetchDecode s = .ok .exit
  | .faulted f, s => s.fault = some f

theorem runTransaction_describes (n : Nat) (s : State) :
    (runTransaction n s).1.describes (runTransaction n s).2 := by
  induction n generalizing s with
  | zero =>
    cases hf : s.fault with
    | some f => rw [runTransaction_of_faulted _ hf]; exact hf
    | none => rw [runTransaction_zero_of_live hf]; exact hf
  | succ n ih =>
    rcases ht : stepTransaction s with ⟨_ | _ | f, s'⟩
    case cont => rw [runTransaction_succ_of_cont _ ht]; exact ih s'
    case halt =>
      obtain ⟨hlive, hi, rfl⟩ := exit_of_stepTransaction_halt ht
      rw [runTransaction_succ_of_halt _ ht]
      exact ⟨hlive, hi⟩
    case fault =>
      rw [runTransaction_succ_of_fault _ ht]
      exact latched_of_stepTransaction_fault ht

/-- A run of at least one step that exhausts its budget begins with a step that answers Continue. -/
theorem stepTransaction_cont_of_exhausted {n : Nat} {s : State} (h : (runTransaction (n + 1) s).1 = .exhausted) :
    (stepTransaction s).1 = .cont := by
  rcases ht : stepTransaction s with ⟨_ | _ | f, s'⟩
  case cont => rfl
  case halt => rw [runTransaction_succ_of_halt _ ht] at h; cases h
  case fault => rw [runTransaction_succ_of_fault _ ht] at h; cases h

/-- A run that exhausts its budget exhausts every smaller one. -/
theorem exhausted_of_add {m n : Nat} {s : State} (h : (runTransaction (m + n) s).1 = .exhausted) :
    (runTransaction m s).1 = .exhausted := by
  by_contra hm
  rw [runTransaction_add_of_not_exhausted n hm] at h
  exact hm h

/-- Settles O43: the end by induction on the budget (`runTransaction_describes`); a step inside an exhausted run is the
first of the rest of the run (`runTransaction_add_of_exhausted`). -/
theorem runEndsAsItsResultSays : Obligations.RunEndsAsItsResultSays := by
  intro n s
  have hend := runTransaction_describes n s
  refine ⟨fun h => ?_, fun f h => ?_, fun h => ⟨?_, fun k hk => ?_⟩⟩
  · rwa [h] at hend
  · rwa [h] at hend
  · rwa [h] at hend
  · obtain ⟨j, rfl⟩ := Nat.exists_eq_add_of_lt hk
    rw [Nat.add_assoc] at h
    rw [runTransaction_add_of_exhausted (j + 1) (exhausted_of_add h)] at h
    exact stepTransaction_cont_of_exhausted h

/-! ### Fetch and `step` (40_dispatch.md R65, R66) -/

/-- Settles O27: the fetch gives the instruction the text at `pc` decodes to (`step_of_decode`), which is always well
formed, so that premise is not used. -/
theorem stepRunsTheDecodedInstruction : Obligations.StepRunsTheDecodedInstruction :=
  fun _ _ _ hlive hc hd _ => step_of_decode hlive hc hd

/-- A live core whose `pc` names no cell faults in BSA at fetch. -/
theorem step_of_not_hasCell {s : State} (hlive : s.fault = none) (hn : ¬ s.hasCell s.pc) :
    step s = .next (s.takeFault (.outOfBounds s.pc s.memSize)) := by
  rw [step, hlive, fetchDecode, check_of_not_hasCell hn]
  rfl

/-- Settles O28: a `pc` outside names no cell; inside, the fetch goes by the class of the cell's text. -/
theorem fetchChecksPc : Obligations.FetchChecksPc := by
  intro s hlive
  constructor
  · intro hout
    exact step_of_not_hasCell hlive fun ⟨h0, hN⟩ => by omega
  · intro c i hc hk
    rw [fetchDecode_of_cell hc, hk]

/-- `step` of a live core settles the body of STEP. -/
theorem step_eq_settle {s : State} (hlive : s.fault = none) : step s = settle s (stepBody s) := by
  rw [step, hlive, stepBody]
  cases fetchDecode s with
  | error f => rfl
  | ok i => exact exec_eq_settle i s

/-- Settles O32: `step` and STEP take the same body, and both enter its fault or keep its committed state. -/
theorem stepAgreesWithStepTransaction : Obligations.StepAgreesWithStepTransaction := by
  intro s
  constructor
  · intro hlive
    obtain ⟨f, hf, -⟩ | ⟨-, g, s', hb, ht⟩ | ⟨-, f, hb, ht⟩ := stepTransaction_cases s
    · cases hlive.symm.trans hf
    · rw [step_eq_settle hlive, hb, ht, settle_ok]
    · rw [step_eq_settle hlive, hb, ht, settle_error]
  · intro f hf
    rw [step, hf]

/-! ### A word placed where the next step fetches (log 3, log 7) -/

@[simp] theorem placeAtFetch_fault (s : State) (t : Text) : (s.placeAtFetch t).fault = none := by
  unfold State.placeAtFetch
  split <;> rfl

/-- The placed text is the one at `pc`, wherever `pc` stood. -/
theorem placeAtFetch_cell_pc (s : State) (t : Text) : (s.placeAtFetch t).cell (s.placeAtFetch t).pc = some t := by
  unfold State.placeAtFetch
  split
  · next h => exact commit_cell_same (sel := .hold) h
  · rfl

theorem decodeTableWord_eq_some {nbits w : Nat} {i : Instr} (h : decodeTableWord nbits w = some i) :
    ∃ t, tableText nbits w = some t ∧ decode (trim t) = .ok i := by
  unfold decodeTableWord at h
  split at h
  · cases h
  · next t ht =>
    split at h
    · next hd => cases h; exact ⟨t, ht, hd⟩
    · cases h

theorem withFetchWord_of_tableText (s : State) {nbits w : Nat} {t : Text} (h : tableText nbits w = some t) :
    s.withFetchWord nbits w = s.placeAtFetch t := by
  rw [State.withFetchWord, h, Option.getD_some]

/-- Settles O47: the placed core is live and its cell at `pc` holds the text of the word. -/
theorem placedWordIsTheNextInstruction : Obligations.PlacedWordIsTheNextInstruction := by
  intro s nbits w i h
  obtain ⟨t, ht, hd⟩ := decodeTableWord_eq_some h
  rw [withFetchWord_of_tableText s ht]
  exact step_of_decode (placeAtFetch_fault s t) (placeAtFetch_cell_pc s t) hd

end Sys2Proof.Machine

/-! `succ` on every state in which its target resolves or faults: the incremented counter, the overflow at `INT_MAX`,
and the operand faults (41_succ.md R75, R77). -/

namespace Sys2Proof.Machine

/-! ### The faults an operand raises (20_memory.md R37, 60_exceptions.md R86) -/

/-- An indirect operand whose pointer cell holds no integer is malformed, with that cell's text. -/
theorem resolve_indirect_of_malformed {s : State} {op : Operand} {t : Text} (hm : op.mode = .indirect)
    (ht : s.cell op.lit = some t) (hv : cellInt t = none) :
    resolve s op = .error (.malformedIndirectTarget op.lit t) := by
  rw [resolve_indirect_of_cell hm ht, hv]
  rfl

/-- A fault of the target, in its resolution or in its bounds check, is the fault of `succ`. -/
theorem succBody_of_operandFault {s : State} {target : Operand} {f : Fault} (h : operandFault s target f) :
    succBody target s = .error f := by
  obtain hr | ⟨a, hr, hn, rfl⟩ := h
  · rw [succBody, hr]
    rfl
  · simp [succBody, hr, check_of_not_hasCell hn, bind, Except.bind]

theorem exec_succ_of_operandFault {s : State} {target : Operand} {f : Fault} (h : operandFault s target f) :
    exec (.succ target) s = .next (s.takeFault f) := by
  rw [exec_eq_settle, dispatch, succBody_of_operandFault h, settle_error]

/-- Settles O19: a fault of the resolution, or of the bounds check after it, is an operand fault
(`exec_succ_of_operandFault`). -/
theorem succFaultsInCheckOrder : Obligations.SuccFaultsInCheckOrder := by
  intro s target
  refine ⟨fun hm hn => ?_, fun t hm ht hv => ?_, fun a hr hn => ?_⟩
  · exact exec_succ_of_operandFault (.inl (resolve_indirect_of_not_hasCell hm hn))
  · exact exec_succ_of_operandFault (.inl (resolve_indirect_of_malformed hm ht hv))
  · exact exec_succ_of_operandFault (.inr ⟨a, hr, hn, rfl⟩)

/-! ### The counter (41_succ.md R77) -/

/-- At `INT_MAX` `succ` faults with no write, and the record holds the counter it read. -/
theorem exec_succ_of_intMax {s : State} {target : Operand} {a : Int} {t : Text} (hr : resolve s target = .ok a)
    (ht : s.cell a = some t) (hmax : lenient t = Config.intMax) :
    exec (.succ target) s = .next (s.takeFault (.arithmeticOverflow a Config.intMax)) := by
  have hbody : succBody target s = .error (.arithmeticOverflow a Config.intMax) := by
    simp [succBody, hr, check_of_hasCell (hasCell_of_cell ht), readCounter_of_cell ht, succOverflows, hmax,
      bind, Except.bind]
  rw [exec_eq_settle, dispatch, hbody, settle_error]

/-- Settles O18: below `INT_MAX` the next state is the commit of the incremented counter (`exec_succ_of_counter`), read
back by the rules of `commit`; at `INT_MAX` the overflow (`exec_succ_of_intMax`). -/
theorem succIncrementsTheCounter : Obligations.SuccIncrementsTheCounter := by
  intro s target a t hr ht
  refine ⟨fun hmax => ⟨_, exec_succ_of_counter hr ht hmax, ?_⟩, exec_succ_of_intMax hr ht⟩
  exact ⟨commit_cell_same (hasCell_of_cell ht), fun _ hb => commit_cell_other hb, commit_memSize ..,
    commit_pc .., commit_fault ..⟩

end Sys2Proof.Machine

/-! `beqz-pred` on every state in which its operands resolve or fault: the branch on zero, the decrement, the overflow
at `INT_MIN`, and the operand faults (42_beqz_pred.md R78, R79, R81). -/

namespace Sys2Proof.Machine

/-! ### An operand as an address that will be accessed (20_memory.md R32) -/

section Access
variable {α : Type} {s : State} {op : Operand}

/-- A fault of the resolution, or of the bounds check after it, ends whatever was to follow. -/
theorem access_of_operandFault {f : Fault} (k : Int → Except Fault α) (h : operandFault s op f) :
    (do let a ← resolve s op; check s a; k a) = .error f := by
  obtain hr | ⟨a, hr, hn, rfl⟩ := h
  · rw [hr]
    rfl
  · rw [hr]
    exact congrArg (· >>= fun _ => k a) (check_of_not_hasCell hn)

/-- The address of an existing cell is handed on. -/
theorem access_of_hasCell {a : Int} (k : Int → Except Fault α) (hr : resolve s op = .ok a) (ha : s.hasCell a) :
    (do let a ← resolve s op; check s a; k a) = k a := by
  rw [hr]
  exact congrArg (· >>= fun _ => k a) (check_of_hasCell ha)

/-- An instruction that enters the faults of an operand enters each of the three, in check order
(60_exceptions.md R86). -/
theorem exec_operandFault_clauses {i : Instr} (h : ∀ f, operandFault s op f → exec i s = .next (s.takeFault f)) :
    (op.mode = .indirect → ¬ s.hasCell op.lit → exec i s = .next (s.takeFault (.outOfBounds op.lit s.memSize))) ∧
    (∀ t, op.mode = .indirect → s.cell op.lit = some t → cellInt t = none →
      exec i s = .next (s.takeFault (.malformedIndirectTarget op.lit t))) ∧
    (∀ a, resolve s op = .ok a → ¬ s.hasCell a → exec i s = .next (s.takeFault (.outOfBounds a s.memSize))) :=
  ⟨fun hm hn => h _ (.inl (resolve_indirect_of_not_hasCell hm hn)),
    fun _ hm ht hv => h _ (.inl (resolve_indirect_of_malformed hm ht hv)),
    fun a hr hn => h _ (.inr ⟨a, hr, hn, rfl⟩)⟩

end Access

/-! ### The test operand and its counter (42_beqz_pred.md R78) -/

/-- A fault of the test operand is the fault of `beqz-pred`. -/
theorem exec_beqzPred_of_testFault {s : State} {test : Operand} (jump : Operand) {f : Fault}
    (h : operandFault s test f) : exec (.beqzPred test jump) s = .next (s.takeFault f) := by
  rw [exec_eq_settle, dispatch, beqzPredBody, access_of_operandFault _ h, settle_error]

section Counter
variable {s : State} {test jump : Operand} {ta : Int} {t : Text}

/-- An admitted test operand leaves three paths, chosen by the counter alone; only the first one reads the jump
operand. -/
theorem beqzPredBody_of_counter (jump : Operand) (hr : resolve s test = .ok ta) (ht : s.cell ta = some t) :
    beqzPredBody test jump s =
      if lenient t = 0 then do
        let ja ← resolve s jump
        check s ja
        .ok (.cont, commit s none (.load ja))
      else if lenient t = Config.intMin then .error (.arithmeticOverflow ta (lenient t))
      else .ok (.cont, commit s (some (ta, render (lenient t - 1))) .inc) := by
  rw [beqzPredBody, access_of_hasCell _ hr (hasCell_of_cell ht), readCounter_of_cell ht]
  simp only [counterIsZero, predOverflows, counterWrite, beq_iff_eq]

/-- The zero path commits the jump to an existing cell. -/
theorem exec_beqzPred_of_zero {ja : Int} (hr : resolve s test = .ok ta) (ht : s.cell ta = some t)
    (hz : lenient t = 0) (hj : resolve s jump = .ok ja) (hja : s.hasCell ja) :
    exec (.beqzPred test jump) s = .next (commit s none (.load ja)) := by
  rw [exec_eq_settle, dispatch, beqzPredBody_of_counter jump hr ht, if_pos hz, access_of_hasCell _ hj hja, settle_ok]

/-- On the zero path a fault of the jump operand is the fault of `beqz-pred`. -/
theorem exec_beqzPred_of_jumpFault {f : Fault} (hr : resolve s test = .ok ta) (ht : s.cell ta = some t)
    (hz : lenient t = 0) (h : operandFault s jump f) :
    exec (.beqzPred test jump) s = .next (s.takeFault f) := by
  rw [exec_eq_settle, dispatch, beqzPredBody_of_counter jump hr ht, if_pos hz, access_of_operandFault _ h,
    settle_error]

/-- A counter that is neither 0 nor `INT_MIN` is decremented, whatever the jump operand. -/
theorem exec_beqzPred_of_nonzero (jump : Operand) (hr : resolve s test = .ok ta) (ht : s.cell ta = some t)
    (hz : lenient t ≠ 0) (hmin : lenient t ≠ Config.intMin) :
    exec (.beqzPred test jump) s = .next (commit s (some (ta, render (lenient t - 1))) .inc) := by
  rw [exec_eq_settle, dispatch, beqzPredBody_of_counter jump hr ht, if_neg hz, if_neg hmin, settle_ok]

/-- At `INT_MIN` `beqz-pred` faults with no write, and the record holds the counter it read. -/
theorem exec_beqzPred_of_intMin (jump : Operand) (hr : resolve s test = .ok ta) (ht : s.cell ta = some t)
    (hmin : lenient t = Config.intMin) :
    exec (.beqzPred test jump) s = .next (s.takeFault (.arithmeticOverflow ta Config.intMin)) := by
  have hz : lenient t ≠ 0 := by rw [hmin, intMin_eq]; decide
  rw [exec_eq_settle, dispatch, beqzPredBody_of_counter jump hr ht, if_neg hz, if_pos hmin, settle_error, hmin]

end Counter

/-- Every instruction has a next state, its commit's or its fault entry's. -/
theorem exists_exec_next (i : Instr) (s : State) : ∃ s', exec i s = .next s' := by
  rw [exec_eq_settle]
  rcases dispatch i s with f | ⟨g, s'⟩
  · exact ⟨_, settle_error s f⟩
  · exact ⟨_, settle_ok s s' g⟩

/-- Settles O21: the next state is the commit of the jump, which writes no cell (`exec_beqzPred_of_zero`). -/
theorem beqzPredBranchesOnZero : Obligations.BeqzPredBranchesOnZero := by
  intro s test jump ta ja t hr ht hz hj hja
  exact ⟨_, exec_beqzPred_of_zero hr ht hz hj hja, commit_pc .., commit_mem_none .., commit_fault ..⟩

/-- Settles O22: the decrement by the rules of its commit (`exec_beqzPred_of_nonzero`), the overflow at `INT_MIN`
(`exec_beqzPred_of_intMin`); at 0 some next state exists, and the zero path's frame says what it holds. -/
theorem beqzPredDecrementsNonZero : Obligations.BeqzPredDecrementsNonZero := by
  intro s test jump ta t hr ht
  refine ⟨fun hz hmin => ⟨_, exec_beqzPred_of_nonzero jump hr ht hz hmin, ?_⟩,
    exec_beqzPred_of_intMin jump hr ht, fun hz => ?_⟩
  · exact ⟨commit_cell_same (hasCell_of_cell ht), fun _ hb => commit_cell_other hb, commit_memSize ..,
      commit_pc .., commit_fault ..⟩
  · obtain ⟨s', hs'⟩ := exists_exec_next (.beqzPred test jump) s
    exact ⟨s', hs', exec_beqzPred_mem_of_zero hs' hr ht hz⟩

/-- Settles O23: the clauses are those of an operand fault (`exec_operandFault_clauses`), of the test and, on the zero
path, of the jump. -/
theorem beqzPredFaultsInCheckOrder : Obligations.BeqzPredFaultsInCheckOrder := by
  intro s test jump
  obtain ⟨hbounds, hmalformed, haddress⟩ :=
    exec_operandFault_clauses fun _ => exec_beqzPred_of_testFault (s := s) (test := test) jump
  refine ⟨hbounds, hmalformed, haddress, fun ta c hr hc hz => ?_⟩
  exact exec_operandFault_clauses fun _ => exec_beqzPred_of_jumpFault hr hc hz

/-- Settles O25: neither the overflow nor the decrement reads the jump operand (`beqzPredBody_of_counter`). -/
theorem nonZeroTestIgnoresJumpOperand : Obligations.NonZeroTestIgnoresJumpOperand := by
  intro s test jump jump' ta t hr ht hz
  have hbody : beqzPredBody test jump s = beqzPredBody test jump' s := by
    rw [beqzPredBody_of_counter jump hr ht, beqzPredBody_of_counter jump' hr ht, if_neg hz, if_neg hz]
  exact congrArg (settle s) hbody

end Sys2Proof.Machine

/-! `exit`, executed in any state and met by a STEP and a RUN of a live core (43_exit.md R82, R83). -/

namespace Sys2Proof.Machine

/-- `exit` commits no write and holds `pc`, which is the state it began in (43_exit.md R82). -/
theorem exec_exit (s : State) : exec .exit s = .next s := by
  rw [exec_eq_settle, dispatch, exitBody, commit_none_hold, settle_ok]

/-- The fetch gives the instruction the text at `pc` decodes to (40_dispatch.md R67). -/
theorem fetchDecode_of_decode {s : State} {c : Text} {i : Instr} (hc : s.cell s.pc = some c)
    (hd : decode (trim c) = .ok i) : fetchDecode s = .ok i := by
  rw [fetchDecode_of_cell hc, classify_of_decode hd]

/-- A live core that fetches `exit` halts: the other two things STEP can do need another fetch. -/
theorem stepTransaction_of_exit {s : State} (hlive : s.fault = none) (hexit : fetchDecode s = .ok .exit) :
    stepTransaction s = (.halt, s) := by
  obtain ⟨-, ht⟩ | ⟨i, s', hne, hi, -, -⟩ | ⟨hne, -⟩ := stepTransaction_of_live hlive
  · exact ht
  · exact absurd (Except.ok.inj (hi.symm.trans hexit)) hne
  · exact absurd hexit hne

/-- Settles O26: `exit` is executed by `step` (`step_of_decode`) and answered by STEP (`stepTransaction_of_exit`), and
that answer ends a RUN at its first step. -/
theorem exitHaltsAndChangesNothing : Obligations.ExitHaltsAndChangesNothing := by
  refine ⟨exec_exit, fun s c hlive hc hd => ?_⟩
  have hstep : step s = .next s := (step_of_decode hlive hc hd).trans (exec_exit s)
  have hhalt : stepTransaction s = (.halt, s) := stepTransaction_of_exit hlive (fetchDecode_of_decode hc hd)
  exact ⟨hstep, hhalt, fun n => runTransaction_succ_of_halt n hhalt⟩

end Sys2Proof.Machine

/-! Faults: what a latched record tells, how it is entered, and what it holds until CONSTRUCT (60_exceptions.md). -/

namespace Sys2Proof.Machine

/-! ### What a step latches (60_exceptions.md R84, R85) -/

/-- No state shows a MalformedAddress, so a record that describes one is of another kind (20_memory.md R38). -/
theorem kind_ne_malformedAddress {f : Fault} {s : State} (h : f.describes s) : f.kind ≠ .malformedAddress := by
  cases f with
  | malformedAddress operandText => exact h.elim
  | outOfBounds | invalidInstruction | executingData | malformedIndirectTarget | arithmeticOverflow => nofun

/-- The latch a step of a live core leaves is honest: a fault it enters describes the state, and a commit latches none. -/
theorem step_faultHonest {s s' : State} (h : step s = .next s') : s'.faultHonest := by
  obtain ⟨hlive, ⟨f, hf, rfl⟩ | ⟨-, i, g, hd⟩⟩ := step_cases h
  · exact takeFault_faultHonest hf
  · obtain ⟨-, hfault⟩ := dispatch_ok_frame hd
    exact faultHonest_of_live (hfault.trans hlive)

/-- Settles O40: the record describes the state by `step_faultHonest`, and so it is no MalformedAddress. -/
theorem latchedRecordsTellTheTruth : Obligations.LatchedRecordsTellTheTruth := by
  intro s s' f h hf
  have hdesc : f.describes s' := step_faultHonest h f hf
  exact ⟨hdesc, kind_ne_malformedAddress hdesc⟩

/-- `FAULT.code` is the code of the latched record's kind (60_exceptions.md R84). -/
theorem faultCode_of_latched {s : State} {f : Fault} (h : s.fault = some f) : s.faultCode = f.kind.code := by
  rw [State.faultCode, h]

/-- Settles O41: the code is that of the record's kind, by cases on the record. -/
theorem faultCodesAreTheListed : Obligations.FaultCodesAreTheListed := by
  intro s f h
  rw [faultCode_of_latched h]
  cases f <;> rfl

/-! ### One outcome for every step (60_exceptions.md R99) -/

/-- Settles O30: an instruction by its arm (`exists_exec_next`); a live core's step leaves the state STEP leaves, and a
faulted core's answers the latched record (`stepAgreesWithStepTransaction`). -/
theorem everyStepHasOneOutcome : Obligations.EveryStepHasOneOutcome := by
  refine ⟨exists_exec_next, fun s => ?_⟩
  obtain ⟨hnext, hfaulted⟩ := stepAgreesWithStepTransaction s
  cases hf : s.fault with
  | none => exact .inl ⟨_, hnext hf⟩
  | some f => exact .inr ⟨f, rfl, hfaulted f hf⟩

/-! ### Fault entry and the sticky latch (60_exceptions.md R88, R89) -/

/-- A live core whose STEP answers a fault has entered it (60_exceptions.md R88). -/
theorem eq_takeFault_of_stepTransaction_fault {s s' : State} {f : Fault} (hlive : s.fault = none)
    (h : stepTransaction s = (.fault f, s')) : s' = s.takeFault f := by
  obtain ⟨-, ht⟩ | ⟨i, t, -, -, -, ht⟩ | ⟨-, e, ht⟩ := stepTransaction_of_live hlive
  · cases h.symm.trans ht
  · cases h.symm.trans ht
  · cases h.symm.trans ht; rfl

/-- Settles O38: the state is that of the fault's entry, and the RUN ends at its first step. -/
theorem faultEntryIsPrecise : Obligations.FaultEntryIsPrecise := fun _ _ _ hlive h =>
  ⟨eq_takeFault_of_stepTransaction_fault hlive h, fun n => runTransaction_succ_of_fault n h⟩

/-- With a fault latched no transaction but CONSTRUCT changes the state (60_exceptions.md R89). -/
theorem transact_state_of_faulted {s : State} {f : Fault} (h : s.fault = some f) {t : Transaction}
    (ht : ∀ pc0 image, t ≠ .construct pc0 image) : (transact t s).2 = s := by
  cases t with
  | construct pc0 image => exact absurd rfl (ht pc0 image)
  | step => rw [transact, stepTransaction_of_faulted h]
  | run n => rw [transact, runTransaction_of_faulted n h]
  | queryPc => rfl
  | queryMem => rfl
  | queryFault => rfl

/-- Settles O39: STEP and RUN answer the latched record, the other transactions by `transact_state_of_faulted`, and the
latch of a constructed core is clear. -/
theorem faultLatchIsSticky : Obligations.FaultLatchIsSticky := fun _ _ h =>
  ⟨stepTransaction_of_faulted h, fun n => runTransaction_of_faulted n h, fun _ ht => transact_state_of_faulted h ht,
    construct_fault⟩

end Sys2Proof.Machine

/-! Reset, images and the launch premise: the texts of a loaded image, and that every cell stays trimmed from a launch
on (70_reset_and_hazards.md). -/

namespace Sys2Proof

/-! ### Trimming leaves a trimmed text alone (30_encoding.md R50) -/

theorem trimStart_of_head {t : Text} (h : ∀ c, t.head? = some c → isWs c = false) : trimStart t = t :=
  List.dropWhile_eq_self_iff.mpr fun hl => by simp [h _ (List.head?_eq_getElem? ▸ List.getElem?_eq_getElem hl)]

theorem trimEnd_of_getLast {t : Text} (h : ∀ c, t.getLast? = some c → isWs c = false) : trimEnd t = t := by
  rw [trimEnd, trimStart_of_head (by simpa using h), List.reverse_reverse]

theorem trim_trim (t : Text) : trim (trim t) = trim t := by
  have hstart : trimStart (trim t) = trim t := trimStart_of_head fun _ => isWs_head_trim
  have hend : trimEnd (trim t) = trim t := trimEnd_of_getLast fun _ => isWs_getLast_trimEnd
  rw [trim, hstart, hend]

theorem trim_render (v : Int) : trim (render v) = render v :=
  trim_of_isIntLiteral (isIntLiteral_render v)

end Sys2Proof

namespace Sys2Proof.Machine

/-! ### The lines of an image (70_reset_and_hazards.md R104) -/

/-- A text has a first line, which may be empty. -/
theorem exists_splitLines_cons (t : Text) : ∃ l ls, splitLines t = l :: ls := by
  cases t with
  | nil => exact ⟨[], [], rfl⟩
  | cons c cs =>
    rw [splitLines]
    split
    · exact ⟨_, _, rfl⟩
    · split <;> exact ⟨_, _, rfl⟩

/-- LF ends an empty first line. -/
theorem splitLines_lf_cons (cs : Text) : splitLines ('\n' :: cs) = [] :: splitLines cs := by
  obtain ⟨l, ls, hcs⟩ := exists_splitLines_cons cs
  simp [splitLines, hcs]

/-- Characters other than LF before a text lengthen its first line. -/
theorem splitLines_append {w t l : Text} {ls : List Text} (hw : '\n' ∉ w) (ht : splitLines t = l :: ls) :
    splitLines (w ++ t) = (w ++ l) :: ls := by
  induction w with
  | nil => exact ht
  | cons c cs ih =>
    obtain ⟨hc, hcs⟩ := List.ne_and_not_mem_of_not_mem_cons hw
    rw [List.cons_append, splitLines, ih hcs]
    exact if_neg hc.symm

/-- Lines without LF, joined by LF, are what splitting gives back. -/
theorem splitLines_join (first : Text) (rest : List Text) (h : ∀ l ∈ first :: rest, '\n' ∉ l) :
    splitLines (first ++ (rest.map fun l => '\n' :: l).flatten) = first :: rest := by
  obtain ⟨hfirst, hrest⟩ := List.forall_mem_cons.mp h
  induction rest generalizing first with
  | nil => simpa using splitLines_append hfirst (t := []) rfl
  | cons l ls ih =>
    obtain ⟨hl, hls⟩ := List.forall_mem_cons.mp hrest
    have htail : splitLines ('\n' :: (l ++ (ls.map fun l => '\n' :: l).flatten)) = [] :: l :: ls := by
      rw [splitLines_lf_cons, ih l hrest hl hls]
    simpa using splitLines_append hfirst htail

/-- Settles O51: the split gives the lines back (`splitLines_join`), and the rest is the definition of LoadImage. -/
theorem loadImageKeepsNonBlankLines : Obligations.LoadImageKeepsNonBlankLines := by
  intro first rest h
  rw [loadImage, splitLines_join first rest h]

/-- Every text of a loaded image is a trimmed line. -/
theorem trim_of_mem_loadImage {text c : Text} (h : c ∈ loadImage text) : trim c = c := by
  obtain ⟨l, -, rfl⟩ := List.mem_map.mp (List.mem_of_mem_filter h)
  exact trim_trim l

/-! ### The launch premise (70_reset_and_hazards.md R106) -/

theorem allCellsTrimmed_iff_cell {s : State} :
    s.allCellsTrimmed ↔ ∀ (a : Int) (t : Text), s.cell a = some t → trim t = t := by
  constructor
  · intro h a t ht
    exact h t (mem_of_cell ht)
  · intro h t ht
    obtain ⟨k, hk⟩ := List.mem_iff_getElem?.mp ht
    exact h k t ((cell_natCast s k).trans hk)

theorem construct_loadImage_allCellsTrimmed (pc0 : Int) (text : Text) :
    (construct pc0 (loadImage text)).allCellsTrimmed := fun _ => trim_of_mem_loadImage

/-- A cell that a step changes holds a counter's text, which is trimmed; every other cell is as before. -/
theorem step_allCellsTrimmed {s s' : State} (hs : s.allCellsTrimmed) (h : step s = .next s') :
    s'.allCellsTrimmed := by
  refine allCellsTrimmed_iff_cell.mpr fun a t ht => ?_
  by_cases hkept : s'.cell a = s.cell a
  · exact allCellsTrimmed_iff_cell.mp hs a t (hkept.symm.trans ht)
  · obtain ⟨v, -, hv⟩ := writtenCellsAreCanonicalCounters s s' a h hkept
    obtain rfl : render v = t := Option.some.inj (hv.symm.trans ht)
    exact trim_render v

/-- STEP leaves the state of `step` in a live core, and its own state in a faulted one. -/
theorem stepTransaction_allCellsTrimmed {s : State} (hs : s.allCellsTrimmed) :
    (stepTransaction s).2.allCellsTrimmed := by
  cases hf : s.fault with
  | none => exact step_allCellsTrimmed hs ((stepAgreesWithStepTransaction s).1 hf)
  | some f => rwa [stepTransaction_of_faulted hf]

/-- Settles O50: a loaded image is trimmed, a step writes counters alone (`step_allCellsTrimmed`), a RUN keeps what its
steps keep (`runTransaction_invariant`), and both settings of `PARSE_TRIMS` read a trimmed cell alike. -/
theorem launchPremiseHoldsAndIsKept : Obligations.LaunchPremiseHoldsAndIsKept :=
  ⟨construct_loadImage_allCellsTrimmed,
    fun _ _ => step_allCellsTrimmed,
    fun n pc0 text => runTransaction_invariant (fun _ => stepTransaction_allCellsTrimmed) n
      (construct_loadImage_allCellsTrimmed pc0 text),
    fun _ hs c hc => cellInt_of_trimmed (hs c hc)⟩

/-! ### A written counter that is fetched (70_reset_and_hazards.md R109) -/

/-- Settles O36: a written counter is of class data (`classify_render`). -/
theorem writtenCellFaultsAsData : Obligations.WrittenCellFaultsAsData := fun _ _ hv hlive hc =>
  step_of_data hlive hc (classify_render hv)

/-! ### Reset (70_reset_and_hazards.md R100) -/

/-- Settles O44: the fields of a constructed state, the cells by index. -/
theorem constructSetsTheWholeState : Obligations.ConstructSetsTheWholeState := fun _ pc0 image =>
  ⟨construct_memSize pc0 image, fun k _ => cell_natCast (construct pc0 image) k, construct_pc pc0 image,
    construct_fault pc0 image⟩

theorem not_hasCell_reset (a : Int) : ¬ State.reset.hasCell a := by
  rintro ⟨h0, hN⟩
  exact absurd hN (not_lt.mpr h0)

/-- Settles O46: the empty CONSTRUCT is sound, has no cell to trim, and faults at its first fetch. -/
theorem resetIsTheEmptyConstruct : Obligations.ResetIsTheEmptyConstruct :=
  ⟨reset_eq_construct, construct_sound (by decide) (by decide), nofun,
    step_of_not_hasCell rfl (not_hasCell_reset State.reset.pc)⟩

end Sys2Proof.Machine
